-- ==== Sys2Proof/Word.lean ====
section
/-! DEFINITION. The word and byte types of the core (spec/00_scope.md R6, R9). -/

namespace Sys2Proof

/-- A word: "an unsigned 32-bit value" (R9). A bit vector stands for the spec's `UInt32` (R25):
DESIGN CHOICE, safe, notes/assumptions/1.md. -/
abbrev Word := BitVec 32

/-- A byte, "8-bit values 0 .. 255" (spec/44_host_preprocessing.md). -/
abbrev Byte := BitVec 8

end Sys2Proof
end

