-- ==== Sys2Proof/Syntax.lean ====
section
/-! DEFINITION. The command set (R47), the assembler's lines (R53) and its pseudo-instructions (R54). -/

namespace Sys2Proof

/-- The nine mnemonics of the opcode map (R47). -/
inductive Mnemonic where
  | nop | init | writeM | readM | compress | readH | readDig | readStatus | clearErr
  deriving DecidableEq, Repr

/-- The four shapes of the IDX field (R45). -/
inductive Format where
  | n | i4 | i3 | i5
  deriving DecidableEq, Repr

/-- A decoded command with its operands, one constructor per row of the opcode table. An index cannot leave
its space (R22, D4), so every value is well-formed: DESIGN CHOICE, safe, notes/assumptions/9.md.
WRITE_M carries its write-data word, the only use of `wdata` (R46). -/
inductive Instr where
  | nop
  | init
  | writeM (idx : Fin 16) (value : Word)
  | readM (idx : Fin 16)
  | compress
  | readH (idx : Fin 8)
  | readDig (idx : Fin 32)
  | readStatus
  | clearErr
  deriving DecidableEq, Repr

/-- The mnemonic of a command. -/
def Instr.mnemonic : Instr → Mnemonic
  | .nop => .nop
  | .init => .init
  | .writeM _ _ => .writeM
  | .readM _ => .readM
  | .compress => .compress
  | .readH _ => .readH
  | .readDig _ => .readDig
  | .readStatus => .readStatus
  | .clearErr => .clearErr

/-- One line of the assembler, one transaction (R53). Operands are numbers as written; WellFormed.lean
says which the assembler accepts. -/
inductive Line where
  | nop
  | init
  | writeM (idx value : Nat)
  | readM (idx : Nat)
  | compress
  | readH (idx : Nat)
  | readDig (idx : Nat)
  | readStatus
  | clearErr
  | word (cmd wdata : Nat)
  deriving DecidableEq, Repr

/-- The pseudo-instructions of R54; `w` holds the sixteen words w0 .. w15. -/
inductive Pseudo where
  | loadBlock (w : Vector Word 16)
  | wait
  | hashBlock (w : Vector Word 16)
  | readDigest
  | readState
  deriving DecidableEq, Repr

/-- A statement of a host program: a line or a pseudo-instruction. -/
inductive Stmt where
  | line (l : Line)
  | pseudo (p : Pseudo)
  deriving DecidableEq, Repr

end Sys2Proof
end

