-- ==== Sys2Proof/WellFormed.lean ====
section
/-! DEFINITION. What the assembler accepts (R53): "The assembler refuses an index outside its range,
because no legal word encodes it", and a value is "0 .. 2^32 − 1". A decoded command (Instr) is
well-formed by its type (notes/assumptions/9.md). -/

namespace Sys2Proof

/-- The values of R53: "hexadecimal with `0x` or decimal, 0 .. 2^32 − 1". -/
def valueFits (v : Nat) : Bool := decide (v < 2 ^ 32)

/-- The check of one line (R53). -/
def Line.wellFormed : Line → Bool
  | .nop => true
  | .init => true
  | .writeM idx value => decide (idx < 16) && valueFits value
  | .readM idx => decide (idx < 16)
  | .compress => true
  | .readH idx => decide (idx < 8)
  | .readDig idx => decide (idx < 32)
  | .readStatus => true
  | .clearErr => true
  | .word cmd wdata => valueFits cmd && valueFits wdata

/-- The check of one statement: the words of a pseudo-instruction fit by their type. -/
def Stmt.wellFormed : Stmt → Bool
  | .line l => l.wellFormed
  | .pseudo _ => true

end Sys2Proof
end

