-- ==== Sys2Proof/Decode.lean ====
section
/-! DEFINITION. The command format and opcode map (R44 to R47), the decoder (R48), total on every word, and
the encoder (R53) written from the same tables. -/

namespace Sys2Proof

/-! ### Fields of the command word -/

/-- OPC, `cmd[31:24]` (R44). -/
def opcField (cmd : Word) : BitVec 8 := cmd.extractLsb' 24 8

/-- RSV, `cmd[23:8]` (R44). -/
def rsvField (cmd : Word) : BitVec 16 := cmd.extractLsb' 8 16

/-- IDX, `cmd[7:0]` (R44). -/
def idxField (cmd : Word) : BitVec 8 := cmd.extractLsb' 0 8

/-- Format I4: `idx = zext32(cmd[3:0])` (R45). -/
def idx4 (cmd : Word) : Fin 16 := ⟨(cmd.extractLsb' 0 4).toNat, BitVec.isLt _⟩

/-- Format I3: `idx = zext32(cmd[2:0])` (R45). -/
def idx3 (cmd : Word) : Fin 8 := ⟨(cmd.extractLsb' 0 3).toNat, BitVec.isLt _⟩

/-- Format I5: `idx = zext32(cmd[4:0])` (R45). -/
def idx5 (cmd : Word) : Fin 32 := ⟨(cmd.extractLsb' 0 5).toNat, BitVec.isLt _⟩

/-! ### The opcode map -/

/-- One row of the opcode map; `pattern` is the table's `match` column. -/
structure OpRow where
  mnemonic : Mnemonic
  format : Format
  pattern : Word
  mask : Word
  deriving DecidableEq, Repr

/-- "a word `w` selects a row iff `(w & mask) == match`" (R47). -/
def OpRow.selects (r : OpRow) (w : Word) : Bool := (w &&& r.mask) == r.pattern

/-- The opcode map of R47 (spec/opcode_table.json), row by row. -/
def opcodeMap : List OpRow := [
  ⟨.nop, .n, 0x00000000, 0xFFFFFFFF⟩,
  ⟨.init, .n, 0x01000000, 0xFFFFFFFF⟩,
  ⟨.writeM, .i4, 0x02000000, 0xFFFFFFF0⟩,
  ⟨.readM, .i4, 0x03000000, 0xFFFFFFF0⟩,
  ⟨.compress, .n, 0x04000000, 0xFFFFFFFF⟩,
  ⟨.readH, .i3, 0x05000000, 0xFFFFFFF8⟩,
  ⟨.readDig, .i5, 0x06000000, 0xFFFFFFE0⟩,
  ⟨.readStatus, .n, 0x07000000, 0xFFFFFFFF⟩,
  ⟨.clearErr, .n, 0x08000000, 0xFFFFFFFF⟩]

/-- The row a word selects; `none` is an illegal word (R48, R49). -/
def rowOf (cmd : Word) : Option OpRow := opcodeMap.find? (·.selects cmd)

/-! ### The decoder -/

/-- The command of a selected row, its index taken from the row's IDX shape (R45, R46). -/
def build (m : Mnemonic) (cmd wdata : Word) : Instr :=
  match m with
  | .nop => .nop
  | .init => .init
  | .writeM => .writeM (idx4 cmd) wdata
  | .readM => .readM (idx4 cmd)
  | .compress => .compress
  | .readH => .readH (idx3 cmd)
  | .readDig => .readDig (idx5 cmd)
  | .readStatus => .readStatus
  | .clearErr => .clearErr

/-- The decoder (R48): total; `none` rejects the word as illegal (R49). -/
def decode (cmd wdata : Word) : Option Instr :=
  (rowOf cmd).map fun r => build r.mnemonic cmd wdata

/-- "A word is *legal* iff `decode` returns `some`" (R48). -/
def isLegal (cmd : Word) : Bool := (rowOf cmd).isSome

/-! ### The encoder -/

/-- The command word and the write-data word of a command (R53; a command without a value sends 0). -/
def encode : Instr → Word × Word
  | .nop => (0x00000000, 0)
  | .init => (0x01000000, 0)
  | .writeM idx value => (0x02000000 ||| BitVec.ofNat 32 idx.val, value)
  | .readM idx => (0x03000000 ||| BitVec.ofNat 32 idx.val, 0)
  | .compress => (0x04000000, 0)
  | .readH idx => (0x05000000 ||| BitVec.ofNat 32 idx.val, 0)
  | .readDig idx => (0x06000000 ||| BitVec.ofNat 32 idx.val, 0)
  | .readStatus => (0x07000000, 0)
  | .clearErr => (0x08000000, 0)

/-! ### The table's numbering -/

/-- The command word of an instruction of `nbits` bits numbered as the opcode table numbers them. -/
def tableCmd (nbits w : Nat) : Word := BitVec.ofNat 32 (w % 2 ^ nbits)

/-- Its second word, the write data: bits 63 .. 32 (R52). -/
def tableWdata (nbits w : Nat) : Word := BitVec.ofNat 32 (w % 2 ^ nbits / 2 ^ 32)

/-- What the decoder reads from an instruction whose bits are `w`; bits at `nbits` and above are 0. -/
def decodeTableWord (nbits w : Nat) : Option Instr :=
  decode (tableCmd nbits w) (tableWdata nbits w)

end Sys2Proof
end

