-- ==== Sys2Proof/Config.lean ====
section
/-! DEFINITION. The parameters of the core: KTABLE and IVTABLE (R7, R69, R70) and the host's length
limit (R6). Neither table is state (R11, R21). -/

namespace Sys2Proof.Config

/-- The eight words of one printed row of R69, first word first. -/
def tableRow (row : BitVec 256) : Vector Word 8 :=
  Vector.ofFn fun j => row.extractLsb' (32 * (7 - j.val)) 32

/-- `KTABLE`, the 64 round constants K[0..63]: "Row r holds K[8r] to K[8r+7]", each row as R69 prints it.
PRESUMED (the spec marks the values "from general knowledge, not in source"), unsafe:
notes/assumptions/2.md. -/
def KTABLE : Vector Word 64 :=
    tableRow 0x428a2f98_71374491_b5c0fbcf_e9b5dba5_3956c25b_59f111f1_923f82a4_ab1c5ed5 ++
    tableRow 0xd807aa98_12835b01_243185be_550c7dc3_72be5d74_80deb1fe_9bdc06a7_c19bf174 ++
    tableRow 0xe49b69c1_efbe4786_0fc19dc6_240ca1cc_2de92c6f_4a7484aa_5cb0a9dc_76f988da ++
    tableRow 0x983e5152_a831c66d_b00327c8_bf597fc7_c6e00bf3_d5a79147_06ca6351_14292967 ++
    tableRow 0x27b70a85_2e1b2138_4d2c6dfc_53380d13_650a7354_766a0abb_81c2c92e_92722c85 ++
    tableRow 0xa2bfe8a1_a81a664b_c24b8b70_c76c51a3_d192e819_d6990624_f40e3585_106aa070 ++
    tableRow 0x19a4c116_1e376c08_2748774c_34b0bcb5_391c0cb3_4ed8aa4a_5b9cca4f_682e6ff3 ++
    tableRow 0x748f82ee_78a5636f_84c87814_8cc70208_90befffa_a4506ceb_bef9a3f7_c67178f2

/-- `IVTABLE`, the 8 initial hash words IV[0..7] of R70. PRESUMED, unsafe: notes/assumptions/2.md. -/
def IVTABLE : Vector Word 8 := #v[
  0x6a09e667, 0xbb67ae85, 0x3c6ef372, 0xa54ff53a, 0x510e527f, 0x9b05688c, 0x1f83d9ab, 0x5be0cd19]

/-- The exclusive bound on the message length in bytes: `L ≥ 2^61` is refused, so that
MAX_MSG_BYTES = 2^61 − 1 (R6, R91; spec/90_conflicts.md C3). -/
def msgBound : Nat := 2 ^ 61

end Sys2Proof.Config
end

