-- ==== Sys2Proof/Machine/State.lean ====
section
/-! DEFINITION. The machine's state: the record of R11, and the two fields of the model's own that hold the
inputs still to come and the port's last outputs. -/

namespace Sys2Proof.Machine

/-- Why the machine could stop with a fault: no reason exists. "The core never traps and never transfers
control" (R101); an error is a response and a sticky bit (R109), so a next state. Nothing raises this;
safe. DEDUCED: notes/assumptions/10.md. -/
inductive Fault where
  deriving DecidableEq, Repr

/-- Why a meaning could be missing. -/
inductive Refusal where
  /-- Raised by `exec` for a command that has no meaning yet; no arm does. Safe: the machine stops. -/
  | notModelled (mnemonic : String)
  deriving DecidableEq, Repr

/-- The working variables a .. h (R20). -/
structure Vars where
  a : Word
  b : Word
  c : Word
  d : Word
  e : Word
  f : Word
  g : Word
  h : Word
  deriving DecidableEq, Repr

/-- The response names of R50; code 3 is never returned and has no name. -/
inductive Resp where
  | ok
  | illegal
  | busy
  deriving DecidableEq, Repr

/-- What a transaction returns to the host: `resp` and `rdata` (R43). -/
structure Reply where
  resp : Resp
  rdata : Word
  deriving DecidableEq, Repr

/-- One atomic step of one agent (R36, R85): a host transaction, an engine step, or a reset by the
environment. -/
inductive Turn where
  | host (cmd wdata : Word)
  | engine
  | reset
  deriving DecidableEq, Repr

/-- The state of one core instance (R11), with the model's own `turns` and `reply`. -/
structure State where
  /-- Hash State H[0..7] (R12). -/
  H : Vector Word 8
  /-- Message block M[0..15] (R13). -/
  M : Vector Word 16
  /-- Message Schedule W[0..63] (R19). -/
  W : Vector Word 64
  /-- Working variables a .. h (R20). -/
  vars : Vars
  /-- Round counter, 0 .. 64 (R16). -/
  t : Fin 65
  /-- STATUS[0:0] (R17). -/
  busy : Bool
  /-- STATUS[1:1], sticky (R17). -/
  errIllegal : Bool
  /-- STATUS[2:2], sticky (R17). -/
  errBusy : Bool
  /-- The model's own: the steps still to come, in order; the interleaving R36 leaves open.
  DESIGN CHOICE, safe: notes/assumptions/3.md. -/
  turns : List Turn
  /-- The model's own: the port's outputs of the last transaction (R43).
  DESIGN CHOICE, safe: notes/assumptions/6.md. -/
  reply : Option Reply
  deriving DecidableEq, Repr

/-- The machine right after reset (R118); `turns` and `reply` are empty (notes/assumptions/3.md, 6.md). -/
def State.reset : State where
  H := Config.IVTABLE
  M := Vector.replicate 16 0
  W := Vector.replicate 64 0
  vars := ⟨0, 0, 0, 0, 0, 0, 0, 0⟩
  t := 0
  busy := false
  errIllegal := false
  errBusy := false
  turns := []
  reply := none

end Sys2Proof.Machine
end

