-- ==== Sys2Proof/Machine/Datapath.lean ====
section
/-! DEFINITION. The pure functions of the datapath (spec/40_datapath_functions.md R55 to R68). -/

namespace Sys2Proof.Machine

/-! ### Word arithmetic and logical functions -/

/-- `add32(x, y) = (x + y) mod 2^32` (R55): the exact sum, narrowed. -/
def add32 (x y : Word) : Word := BitVec.ofNat 32 (x.toNat + y.toNat)

/-- `rotr(x, n) = (x >> n) | (x << (32 − n))`, truncated to 32 bits (R56, R126). -/
def rotr (x : Word) (n : Nat) : Word := (x >>> n) ||| (x <<< (32 - n))

/-- `shr(x, n) = x >> n`, the logical right shift (R57). -/
def shr (x : Word) (n : Nat) : Word := x >>> n

/-- σ0 (R58). -/
def smallSigma0 (x : Word) : Word := rotr x 7 ^^^ rotr x 18 ^^^ shr x 3

/-- σ1 (R59). -/
def smallSigma1 (x : Word) : Word := rotr x 17 ^^^ rotr x 19 ^^^ shr x 10

/-- Σ0 (R60). -/
def bigSigma0 (x : Word) : Word := rotr x 2 ^^^ rotr x 13 ^^^ rotr x 22

/-- Σ1 (R61). -/
def bigSigma1 (x : Word) : Word := rotr x 6 ^^^ rotr x 11 ^^^ rotr x 25

/-- Ch (R62). -/
def ch (x y z : Word) : Word := (x &&& y) ^^^ (~~~x &&& z)

/-- Maj (R63). -/
def maj (x y z : Word) : Word := (x &&& y) ^^^ (x &&& z) ^^^ (y &&& z)

/-! ### Schedule, round, accumulation -/

/-- `SchedTerm(W, t) = σ1(W[t−2]) + W[t−7] + σ0(W[t−15]) + W[t−16]`, for 16 ≤ t ≤ 63 (R64). -/
def schedTerm (W : Vector Word 64) (t : Nat) (ht : 16 ≤ t ∧ t < 64) : Word :=
  add32 (add32 (add32 (smallSigma1 W[t - 2]) W[t - 7]) (smallSigma0 W[t - 15])) W[t - 16]

/-- "if t >= 16 then W[t] <- SchedTerm(W, t)" (R86, R67); no effect outside 16 .. 63. -/
def expandAt (W : Vector Word 64) (t : Nat) : Vector Word 64 :=
  if ht : 16 ≤ t ∧ t < 64 then W.set t (schedTerm W t ht) else W

/-- "W[t] <- M[t]" for one t of 0 .. 15. -/
def loadAt (M : Vector Word 16) (W : Vector Word 64) (t : Nat) : Vector Word 64 :=
  if ht : t < 16 then W.set t M[t] else W

/-- "for t in 0..15: W[t] <- M[t]" (R74). -/
def loadBlock (W : Vector Word 64) (M : Vector Word 16) : Vector Word 64 :=
  (List.range 16).foldl (loadAt M) W

/-- The schedule of a block with the entries below `n` expanded, over the entries of `W` (R67). -/
def scheduleFrom (W : Vector Word 64) (M : Vector Word 16) (n : Nat) : Vector Word 64 :=
  (List.range n).foldl expandAt (loadBlock W M)

/-- The whole Message Schedule of a block (R67): no entry of an earlier block is read, so the start is 0. -/
def schedule (M : Vector Word 16) : Vector Word 64 := scheduleFrom (Vector.replicate 64 0) M 64

/-- The round function (R65); every right-hand side uses the values from before the round. -/
def roundVars (v : Vars) (k w : Word) : Vars :=
  let t1 := add32 (add32 (add32 (add32 v.h (bigSigma1 v.e)) (ch v.e v.f v.g)) k) w
  let t2 := add32 (bigSigma0 v.a) (maj v.a v.b v.c)
  ⟨add32 t1 t2, v.a, v.b, v.c, add32 v.d t1, v.e, v.f, v.g⟩

/-- Round t with K[t] and W[t] (R86, R67); no effect at t = 64 and above. -/
def roundAt (W : Vector Word 64) (v : Vars) (t : Nat) : Vars :=
  if ht : t < 64 then roundVars v Config.KTABLE[t] W[t] else v

/-- The first `n` rounds over the schedule W (R67). -/
def rounds (W : Vector Word 64) (n : Nat) (v : Vars) : Vars := (List.range n).foldl (roundAt W) v

/-- `(a, ..., h) <- (H[0], ..., H[7])` (R74, D18). -/
def seed (H : Vector Word 8) : Vars := ⟨H[0], H[1], H[2], H[3], H[4], H[5], H[6], H[7]⟩

/-- `Acc(H, (a, ..., h))` (R66). -/
def acc (H : Vector Word 8) (v : Vars) : Vector Word 8 :=
  #v[add32 H[0] v.a, add32 H[1] v.b, add32 H[2] v.c, add32 H[3] v.d,
     add32 H[4] v.e, add32 H[5] v.f, add32 H[6] v.g, add32 H[7] v.h]

/-- `Compress(H, M)`, the compression of one block as a pure function (R67). -/
def compress (H : Vector Word 8) (M : Vector Word 16) : Vector Word 8 :=
  acc H (rounds (schedule M) 64 (seed H))

/-! ### Serializer -/

/-- `BE(x) = (x[31:24], x[23:16], x[15:8], x[7:0])` (R68). -/
def beBytes (x : Word) : List Byte :=
  [x.extractLsb' 24 8, x.extractLsb' 16 8, x.extractLsb' 8 8, x.extractLsb' 0 8]

/-- `Serialize(H) = BE(H[0]) ‖ ... ‖ BE(H[7])` (R68). -/
def serialize (H : Vector Word 8) : List Byte := H.toList.flatMap beBytes

/-- `BE32(b0, b1, b2, b3) = (b0 << 24) | (b1 << 16) | (b2 << 8) | b3` (R9). -/
def be32 (b0 b1 b2 b3 : Byte) : Word :=
  (b0.setWidth 32 <<< 24) ||| (b1.setWidth 32 <<< 16) ||| (b2.setWidth 32 <<< 8) ||| b3.setWidth 32

end Sys2Proof.Machine
end

