-- ==== Sys2Proof/Machine/Flags.lean ====
section
/-! DEFINITION. The status bits: STATUS as a word (R17), and what sets and clears the sticky bits. The datapath
sets no flag (R18). -/

namespace Sys2Proof.Machine

/-- `STATUS = zext32({ERR_BUSY, ERR_ILLEGAL, BUSY})` (R17). -/
def statusWord (s : State) : Word :=
  (BitVec.ofBool s.errBusy ++ BitVec.ofBool s.errIllegal ++ BitVec.ofBool s.busy).setWidth 32

/-- `ERR_ILLEGAL <- 1` (R102). -/
def setErrIllegal (s : State) : State := { s with errIllegal := true }

/-- `ERR_BUSY <- 1` (R103). -/
def setErrBusy (s : State) : State := { s with errBusy := true }

/-- `ERR_ILLEGAL <- 0; ERR_BUSY <- 0` (R76). -/
def clearErrors (s : State) : State := { s with errIllegal := false, errBusy := false }

end Sys2Proof.Machine
end

