-- ==== Sys2Proof/Machine/Operands.lean ====
section
/-! DEFINITION. The operands of the data commands: the four index spaces of R22, reached by a command's index
(R46). -/

namespace Sys2Proof.Machine

/-- M[idx] (R80). -/
def getM (idx : Fin 16) (s : State) : Word := s.M[idx]

/-- `M[idx] <- value` (R79). -/
def setM (idx : Fin 16) (value : Word) (s : State) : State := { s with M := s.M.set idx.val value }

/-- H[idx] (R81). -/
def getH (idx : Fin 8) (s : State) : Word := s.H[idx]

/-- The word of H that digest byte `idx` lies in: `j := idx div 4` (R82). -/
def digestWord (idx : Fin 32) : Fin 8 := ⟨idx.val / 4, by omega⟩

/-- Byte `idx` of the digest, `H[j][31 − 8p : 24 − 8p]` with `p := idx mod 4` (R82, R28). -/
def digestByte (idx : Fin 32) (s : State) : Byte :=
  (getH (digestWord idx) s).extractLsb' (24 - 8 * (idx.val % 4)) 8

end Sys2Proof.Machine
end

