-- ==== Sys2Proof/Machine/Ops.lean ====
section
/-! DEFINITION. The operations every command shares: answering the host, the two rejections (the core's whole
error mechanism: it has no trap entry and no trap return, R109, R110), reset, and taking the next turn. -/

namespace Sys2Proof.Machine

/-- The 2-bit code of a response (R50). -/
def Resp.code : Resp → BitVec 2
  | .ok => 0
  | .illegal => 1
  | .busy => 2

/-- `resp, rdata <- OK, rdata` (R50, R51). -/
def answer (rdata : Word) (s : State) : State := { s with reply := some ⟨.ok, rdata⟩ }

/-- The ILLEGAL rejection: `ERR_ILLEGAL <- 1; resp, rdata <- ILLEGAL, 0`, nothing else (R102). -/
def rejectIllegal (s : State) : State := { setErrIllegal s with reply := some ⟨.illegal, 0⟩ }

/-- The BUSY rejection: `ERR_BUSY <- 1; resp, rdata <- BUSY, 0`, nothing else (R103). -/
def rejectBusy (s : State) : State := { setErrBusy s with reply := some ⟨.busy, 0⟩ }

/-- A command that is rejected while BUSY = 1 and performed otherwise (R71, R103).
DEDUCED, safe: notes/assumptions/8.md. -/
def unlessBusy (s : State) (performed : State) : Host.Outcome State Fault Refusal :=
  if s.busy then .next (rejectBusy s) else .next performed

/-- The reset step (R118): every state element at its reset value; the steps still to come stay. -/
def takeReset (s : State) : State := { State.reset with turns := s.turns }

/-- The first of the steps still to come, and the state with it taken off. With none listed the engine moves if
BUSY = 1, since it is then the only agent with a step (R85).
DESIGN CHOICE, safe: notes/assumptions/4.md. -/
def popTurn (s : State) : Option (Turn × State) :=
  match s.turns with
  | turn :: rest => some (turn, { s with turns := rest })
  | [] => if s.busy then some (.engine, s) else none

/-- Put one step in front of the steps still to come. -/
def pushTurn (turn : Turn) (s : State) : State := { s with turns := turn :: s.turns }

end Sys2Proof.Machine
end

