-- ==== Sys2Proof/Machine/Control.lean ====
section
/-! DEFINITION. The control commands (spec/41_control_commands.md R72 to R76). -/

namespace Sys2Proof.Machine

/-- NOP (R72): accepted while BUSY = 1. -/
def execNop (s : State) : Host.Outcome State Fault Refusal := .next (answer 0 s)

/-- INIT (R73): "for i in 0..7: H[i] <- IV[i]". -/
def execInit (s : State) : Host.Outcome State Fault Refusal :=
  unlessBusy s (answer 0 { s with H := Config.IVTABLE })

/-- COMPRESS (R74), the acceptance; the engine does the rest. -/
def execCompress (s : State) : Host.Outcome State Fault Refusal :=
  unlessBusy s
    (answer 0 { s with W := loadBlock s.W s.M, vars := seed s.H, t := 0, busy := true })

/-- READ_STATUS (R75): accepted while BUSY = 1. -/
def execReadStatus (s : State) : Host.Outcome State Fault Refusal :=
  .next (answer (statusWord s) s)

/-- CLEAR_ERR (R76): accepted while BUSY = 1. -/
def execClearErr (s : State) : Host.Outcome State Fault Refusal :=
  .next (answer 0 (clearErrors s))

end Sys2Proof.Machine
end

