-- ==== Sys2Proof/Machine/Data.lean ====
section
/-! DEFINITION. The data commands (spec/42_data_commands.md R79 to R82). -/

namespace Sys2Proof.Machine

/-- WRITE_M (R79): `M[idx] <- wdata`. -/
def execWriteM (idx : Fin 16) (value : Word) (s : State) : Host.Outcome State Fault Refusal :=
  unlessBusy s (answer 0 (setM idx value s))

/-- READ_M (R80). -/
def execReadM (idx : Fin 16) (s : State) : Host.Outcome State Fault Refusal :=
  unlessBusy s (answer (getM idx s) s)

/-- READ_H (R81). -/
def execReadH (idx : Fin 8) (s : State) : Host.Outcome State Fault Refusal :=
  unlessBusy s (answer (getH idx s) s)

/-- READ_DIG (R82): the byte zero-extended to a word; H is read live (D22). -/
def execReadDig (idx : Fin 32) (s : State) : Host.Outcome State Fault Refusal :=
  unlessBusy s (answer ((digestByte idx s).setWidth 32) s)

end Sys2Proof.Machine
end

