-- ==== Sys2Proof/Machine/Dispatch.lean ====
section
/-! DEFINITION. One arm per command: `Perform` of R71. -/

namespace Sys2Proof.Machine

def exec (i : Instr) (s : State) : Host.Outcome State Fault Refusal :=
  match i with
  | .nop => Sys2Proof.Machine.execNop s
  | .init => Sys2Proof.Machine.execInit s
  | .writeM idx value => Sys2Proof.Machine.execWriteM idx value s
  | .readM idx => Sys2Proof.Machine.execReadM idx s
  | .compress => Sys2Proof.Machine.execCompress s
  | .readH idx => Sys2Proof.Machine.execReadH idx s
  | .readDig idx => Sys2Proof.Machine.execReadDig idx s
  | .readStatus => Sys2Proof.Machine.execReadStatus s
  | .clearErr => Sys2Proof.Machine.execClearErr s

end Sys2Proof.Machine
end

