-- ==== Sys2Proof/Machine/Engine.lean ====
section
/-! DEFINITION. The engine (spec/43_compression_engine.md R85 to R87): one step of its own while BUSY = 1.
The 65 steps are taken one by one: DESIGN CHOICE among the three R88 allows, safe,
notes/assumptions/11.md. -/

namespace Sys2Proof.Machine

/-- The engine round step, for t < 64 (R86). -/
def roundStep (s : State) (ht : s.t.val < 64) : State :=
  let W := expandAt s.W s.t.val
  { s with W := W, vars := roundAt W s.vars s.t.val, t := ⟨s.t.val + 1, by omega⟩ }

/-- The engine accumulate step, at t = 64 (R87): all eight H words and BUSY in one step. -/
def accumulateStep (s : State) : State := { s with H := acc s.H s.vars, busy := false }

/-- The engine's step: a round step or the accumulate step while BUSY = 1, no step otherwise (R85).
An engine turn with BUSY = 0 leaves the state: DESIGN CHOICE, safe, notes/assumptions/5.md. -/
def engineStep (s : State) : State :=
  if s.busy then (if ht : s.t.val < 64 then roundStep s ht else accumulateStep s) else s

end Sys2Proof.Machine
end

