-- ==== Sys2Proof/Machine/Transact.lean ====
section
/-! DEFINITION. The transaction step (R71), and one turn of any agent. -/

namespace Sys2Proof.Machine

/-- `Transact(s, cmd, wdata)` (R71): an illegal word is checked first (R108); the BUSY check is in the meanings
(`unlessBusy`). -/
def transact (cmd wdata : Word) (s : State) : Host.Outcome State Fault Refusal :=
  match decode cmd wdata with
  | none => .next (rejectIllegal s)
  | some i => exec i s

/-- One atomic step of one agent (R32, R85, R118). -/
def takeTurn (turn : Turn) (s : State) : Host.Outcome State Fault Refusal :=
  match turn with
  | .host cmd wdata => transact cmd wdata s
  | .engine => .next (engineStep s)
  | .reset => .next (takeReset s)

/-- The next of the steps still to come is taken; with none and BUSY = 0 the core holds its state (R117). -/
def takeNextTurn (s : State) : Host.Outcome State Fault Refusal :=
  match popTurn s with
  | some (turn, s') => takeTurn turn s'
  | none => .next s

/-- `s` with a transaction of an instruction given in the opcode table's numbering placed as the very next turn
(notes/assumptions/7.md). -/
def placeTransaction (s : State) (nbits w : Nat) : State :=
  pushTurn (.host (tableCmd nbits w) (tableWdata nbits w)) s

end Sys2Proof.Machine
end

