-- ==== Sys2Proof/Machine/Step.lean ====
section
/-! DEFINITION. One step of the machine, and where the next transaction is placed. -/

namespace Sys2Proof.Machine

/-- One atomic step: the next turn of `turns` (R32, R36, R85). -/
def step (s : State) : Host.Outcome State Fault Refusal := takeNextTurn s

/-- `s` with an instruction placed where `step` takes its next transaction from. -/
def State.withFetchWord (s : State) (nbits w : Nat) : State := placeTransaction s nbits w

end Sys2Proof.Machine
end

