-- ==== Sys2Proof/Machine/Assembler.lean ====
section
/-! DEFINITION. The assembler of host programs: the words of a line (R53), the expansion of a pseudo-instruction
(R54), and the reading of a line of text (R53). It has no effect on the machine (D23). -/

namespace Sys2Proof.Machine

/-- What a host program does once assembled: a transaction, or the WAIT loop, which is host control flow (R54). -/
inductive HostOp where
  | send (cmd wdata : Word)
  | poll
  deriving DecidableEq, Repr

/-! ### Lines -/

/-- The words of a line, as R53 writes them; "A line that omits `wdata` sends `wdata = 0`". -/
def lineWords : Line → Word × Word
  | .nop => (0x00000000, 0)
  | .init => (0x01000000, 0)
  | .writeM idx value => (0x02000000 ||| BitVec.ofNat 32 idx, BitVec.ofNat 32 value)
  | .readM idx => (0x03000000 ||| BitVec.ofNat 32 idx, 0)
  | .compress => (0x04000000, 0)
  | .readH idx => (0x05000000 ||| BitVec.ofNat 32 idx, 0)
  | .readDig idx => (0x06000000 ||| BitVec.ofNat 32 idx, 0)
  | .readStatus => (0x07000000, 0)
  | .clearErr => (0x08000000, 0)
  | .word cmd wdata => (BitVec.ofNat 32 cmd, BitVec.ofNat 32 wdata)

/-- The transaction of a line; an operand outside its range is refused (R53). -/
def assembleLine (l : Line) : Option (Word × Word) :=
  if l.wellFormed then some (lineWords l) else none

/-! ### Pseudo-instructions -/

/-- The transaction of a command. -/
def sendInstr (i : Instr) : HostOp := .send (encode i).1 (encode i).2

/-- `LOAD_BLOCK`: 16 WRITE_M "in index order" (R54). -/
def loadBlockOps (w : Vector Word 16) : List HostOp :=
  (List.finRange 16).map fun j => sendInstr (.writeM j w[j])

/-- The expansions of R54. -/
def expandPseudo : Pseudo → List HostOp
  | .loadBlock w => loadBlockOps w
  | .wait => [.poll]
  | .hashBlock w => loadBlockOps w ++ [sendInstr .compress, .poll]
  | .readDigest => (List.finRange 32).map fun k => sendInstr (.readDig k)
  | .readState => (List.finRange 8).map fun j => sendInstr (.readH j)

/-- The operations of one statement. -/
def assembleStmt : Stmt → Option (List HostOp)
  | .line l => (assembleLine l).map fun w => [.send w.1 w.2]
  | .pseudo p => some (expandPseudo p)

/-- A host program, statement after statement; one refused line refuses it. -/
def assembleProgram : List Stmt → Option (List HostOp)
  | [] => some []
  | s :: rest =>
    match assembleStmt s, assembleProgram rest with
    | some ops, some more => some (ops ++ more)
    | _, _ => none

/-! ### Text (R53; what R53 leaves open is DESIGN CHOICE, safe: notes/assumptions/14.md) -/

/-- What the first word of a line names. -/
inductive Keyword where
  | op (m : Mnemonic)
  | word
  | loadBlock
  | wait
  | hashBlock
  | readDigest
  | readState
  deriving DecidableEq, Repr

/-- The names of R53 and R54, in capitals. -/
def keywords : List (List Char × Keyword) := [
  (['N', 'O', 'P'], .op .nop),
  (['I', 'N', 'I', 'T'], .op .init),
  (['W', 'R', 'I', 'T', 'E', '_', 'M'], .op .writeM),
  (['R', 'E', 'A', 'D', '_', 'M'], .op .readM),
  (['C', 'O', 'M', 'P', 'R', 'E', 'S', 'S'], .op .compress),
  (['R', 'E', 'A', 'D', '_', 'H'], .op .readH),
  (['R', 'E', 'A', 'D', '_', 'D', 'I', 'G'], .op .readDig),
  (['R', 'E', 'A', 'D', '_', 'S', 'T', 'A', 'T', 'U', 'S'], .op .readStatus),
  (['C', 'L', 'E', 'A', 'R', '_', 'E', 'R', 'R'], .op .clearErr),
  (['.', 'W', 'O', 'R', 'D'], .word),
  (['L', 'O', 'A', 'D', '_', 'B', 'L', 'O', 'C', 'K'], .loadBlock),
  (['W', 'A', 'I', 'T'], .wait),
  (['H', 'A', 'S', 'H', '_', 'B', 'L', 'O', 'C', 'K'], .hashBlock),
  (['R', 'E', 'A', 'D', '_', 'D', 'I', 'G', 'E', 'S', 'T'], .readDigest),
  (['R', 'E', 'A', 'D', '_', 'S', 'T', 'A', 'T', 'E'], .readState)]

/-- A blank between the words of a line. -/
def isBlankChar (c : Char) : Bool := c == ' ' || c == '\t'

/-- The text without blanks at its two ends. -/
def trimBlanks (cs : List Char) : List Char :=
  ((cs.dropWhile isBlankChar).reverse.dropWhile isBlankChar).reverse

/-- The operands of a line, split at the commas. -/
def splitCommas (cs : List Char) : List (List Char) :=
  cs.foldr
    (fun c parts =>
      if c == ',' then [] :: parts
      else match parts with
        | part :: more => (c :: part) :: more
        | [] => [[c]])
    [[]]

/-- The value of a digit in a base of at most 16. -/
def digitValue (base : Nat) (c : Char) : Option Nat :=
  let n := c.toNat
  let v :=
    if 48 ≤ n ∧ n ≤ 57 then n - 48
    else if 65 ≤ n ∧ n ≤ 70 then n - 55
    else if 97 ≤ n ∧ n ≤ 102 then n - 87
    else 16
  if v < base then some v else none

/-- A number written in a base, at least one digit. -/
def readDigits (base : Nat) : Nat → List Char → Option Nat
  | acc, [] => some acc
  | acc, c :: cs =>
    match digitValue base c with
    | some d => readDigits base (acc * base + d) cs
    | none => none

/-- "Indices are decimal" (R53). -/
def readDecimal (cs : List Char) : Option Nat :=
  if cs.isEmpty then none else readDigits 10 0 cs

/-- "Values are hexadecimal with `0x` or decimal" (R53). -/
def readValue : List Char → Option Nat
  | '0' :: 'x' :: cs => if cs.isEmpty then none else readDigits 16 0 cs
  | cs => readDecimal cs

/-- Sixteen words of a block, each of them a value that fits a word (R53, R54). -/
def readBlock (args : List (List Char)) : Option (Vector Word 16) :=
  let values := args.filterMap readValue
  if h : values.length = 16 then
    if args.length = 16 ∧ values.all valueFits then
      some (Vector.ofFn fun j => BitVec.ofNat 32 (values[j.val]'(by omega)))
    else none
  else none

/-- The statement of a keyword with its operands. -/
def readStmt : Keyword → List (List Char) → Option Stmt
  | .op .nop, [] => some (.line .nop)
  | .op .init, [] => some (.line .init)
  | .op .writeM, [idx, value] =>
    match readDecimal idx, readValue value with
    | some i, some v => some (.line (.writeM i v))
    | _, _ => none
  | .op .readM, [idx] => (readDecimal idx).map fun i => .line (.readM i)
  | .op .compress, [] => some (.line .compress)
  | .op .readH, [idx] => (readDecimal idx).map fun i => .line (.readH i)
  | .op .readDig, [idx] => (readDecimal idx).map fun i => .line (.readDig i)
  | .op .readStatus, [] => some (.line .readStatus)
  | .op .clearErr, [] => some (.line .clearErr)
  | .word, [cmd] => (readValue cmd).map fun c => .line (.word c 0)
  | .word, [cmd, wdata] =>
    match readValue cmd, readValue wdata with
    | some c, some d => some (.line (.word c d))
    | _, _ => none
  | .loadBlock, args => (readBlock args).map fun w => .pseudo (.loadBlock w)
  | .wait, [] => some (.pseudo .wait)
  | .hashBlock, args => (readBlock args).map fun w => .pseudo (.hashBlock w)
  | .readDigest, [] => some (.pseudo .readDigest)
  | .readState, [] => some (.pseudo .readState)
  | _, _ => none

/-- One line of text: no statement (blank, or only a comment), one statement, or refused. "`;` begins a comment"
and "Mnemonics are case-insensitive" (R53). -/
def readLine (text : List Char) : Option (List Stmt) :=
  let body := trimBlanks (text.takeWhile (· != ';'))
  if body.isEmpty then some []
  else
    let rest := trimBlanks (body.dropWhile fun c => !isBlankChar c)
    let args := if rest.isEmpty then [] else (splitCommas rest).map trimBlanks
    match keywords.lookup ((body.takeWhile fun c => !isBlankChar c).map Char.toUpper) with
    | some k => (readStmt k args).map fun s => [s]
    | none => none

end Sys2Proof.Machine
end

