-- ==== Sys2Proof/Machine/HostPrep.lean ====
section
/-! DEFINITION. The host's duties before the core sees a block: size planner (R91, R92), padder (R94), block parser
(R96), and the digest they lead to (R67, R97). They are outside the core (R4); lengths and offsets are exact
integers (R9). A message is a list of bytes: DESIGN CHOICE, safe, notes/assumptions/12.md. -/

namespace Sys2Proof.Machine

/-- "Single error kind" of the source (R105): raised by the host, before any command. -/
inductive HostError where
  | inputTooLarge
  deriving DecidableEq, Repr

/-! ### Size planner -/

/-- `bitlen := L * 8` (R92). -/
def bitLength (L : Nat) : Nat := L * 8

/-- `z := (448 − (r + 1)) mod 512` with `r := bitlen mod 512`, over the integers (R92, R9). -/
def zeroBits (L : Nat) : Nat := ((448 - (((bitLength L % 512 : Nat) : Int) + 1)) % 512).toNat

/-- `P := (bitlen + 1 + z + 64) / 8`, the padded length in bytes (R92). -/
def paddedLength (L : Nat) : Nat := (bitLength L + 1 + zeroBits L + 64) / 8

/-- The size planner: `L ≥ 2^61` raises InputTooLarge (R91), else the padded length (R92). -/
def planSize (L : Nat) : Except HostError Nat :=
  if Config.msgBound ≤ L then .error .inputTooLarge else .ok (paddedLength L)

/-! ### Padder -/

/-- The bit length "as an 8-byte big-endian integer" (R94). -/
def lengthField (L : Nat) : List Byte :=
  let n := BitVec.ofNat 64 (bitLength L)
  [n.extractLsb' 56 8, n.extractLsb' 48 8, n.extractLsb' 40 8, n.extractLsb' 32 8,
   n.extractLsb' 24 8, n.extractLsb' 16 8, n.extractLsb' 8 8, n.extractLsb' 0 8]

/-- The padded buffer (R94): the message, `0x80`, `P − L − 9` zero bytes (R93), the length field. -/
def padMessage (msg : List Byte) : List Byte :=
  msg ++ [0x80] ++ List.replicate (paddedLength msg.length - msg.length - 9) 0 ++ lengthField msg.length

/-! ### Block parser -/

/-- Byte k of the host's buffer (R9); no rule reads past its end. -/
def bufByte (buf : List Byte) (k : Nat) : Byte := buf.getD k 0

/-- Word j of block i: `BE32(buf[i*64 + 4j], ..., buf[i*64 + 4j + 3])` (R96). -/
def blockWord (buf : List Byte) (i j : Nat) : Word :=
  be32 (bufByte buf (i * 64 + 4 * j)) (bufByte buf (i * 64 + 4 * j + 1))
    (bufByte buf (i * 64 + 4 * j + 2)) (bufByte buf (i * 64 + 4 * j + 3))

/-- Block i, 16 words (R96). -/
def parseBlock (buf : List Byte) (i : Nat) : Vector Word 16 :=
  Vector.ofFn fun j => blockWord buf i j.val

/-- "Produces exactly `len(PaddedBuffer)/64` blocks" (R96). -/
def parseBlocks (buf : List Byte) : List (Vector Word 16) :=
  (List.range (buf.length / 64)).map (parseBlock buf)

/-! ### The digest -/

/-- The hash state after a list of blocks, folded in order from `H` (R37, R67). -/
def hashBlocks (H : Vector Word 8) (bs : List (Vector Word 16)) : Vector Word 8 := bs.foldl compress H

/-- The digest of a message: IV, every block of the padded message, the serializer (R97, R68). -/
def sha256 (msg : List Byte) : List Byte :=
  serialize (hashBlocks Config.IVTABLE (parseBlocks (padMessage msg)))

end Sys2Proof.Machine
end

