-- ==== Sys2Proof/Machine/Driver.lean ====
section
/-! DEFINITION. The host as an agent: it runs a list of operations against the core, one transaction a turn, and
"compute digest" (R97) is such a list. Its program and its buffers are outside the core's state (R11, R15).
DESIGN CHOICE, safe: notes/assumptions/13.md. -/

namespace Sys2Proof.Machine

/-- A host: what it still has to do, and the replies to its `send` operations, oldest first. -/
structure Agent where
  code : List HostOp
  log : List Reply
  deriving DecidableEq, Repr

/-- The transaction the host issues next; WAIT issues READ_STATUS (R54). -/
def agentTurn (ag : Agent) : Option Turn :=
  match ag.code with
  | [] => none
  | .send cmd wdata :: _ => some (.host cmd wdata)
  | .poll :: _ => some (.host (encode .readStatus).1 (encode .readStatus).2)

/-- The host after the reply: it goes on, but for WAIT "if rdata[0:0] = 1 goto loop" (R54). -/
def agentObserve (ag : Agent) (r : Reply) : Agent :=
  match ag.code with
  | [] => ag
  | .send _ _ :: rest => ⟨rest, ag.log ++ [r]⟩
  | .poll :: rest => if r.rdata.getLsbD 0 then ag else ⟨rest, ag.log⟩

/-- A host and a core. -/
structure System where
  core : State
  agent : Agent
  deriving DecidableEq, Repr

/-- Who moves (R85). -/
inductive Actor where
  | host
  | engine
  | reset
  deriving DecidableEq, Repr

/-- The core's turn for an actor; a host with nothing left to do has none (notes/assumptions/13.md). -/
def actorTurn (who : Actor) (ag : Agent) : Option Turn :=
  match who with
  | .host => agentTurn ag
  | .engine => some .engine
  | .reset => some .reset

/-- The host's part of a step: it sees the reply to its own transaction. A reset during its run leaves its remaining
operations and its log, and it goes on where it was: R100 does not say what a run does then, and R99 and R119 give the
host a duty to start again and no mechanism. DESIGN CHOICE, unsafe: notes/assumptions/17.md. -/
def afterTurn (who : Actor) (ag : Agent) (core : State) : System :=
  match who, core.reply with
  | .host, some r => ⟨core, agentObserve ag r⟩
  | _, _ => ⟨core, ag⟩

/-- One step of host and core together. -/
def systemStep (who : Actor) (y : System) : Host.Outcome System Fault Refusal :=
  match actorTurn who y.agent with
  | none => .next y
  | some turn =>
    match takeTurn turn y.core with
    | .next core => .next (afterTurn who y.agent core)
    | .fault f => .fault f
    | .refused r => .refused r

/-- A run of host and core over a list of who moves. -/
def systemRun : List Actor → System → Host.Outcome System Fault Refusal
  | [], y => .next y
  | who :: rest, y =>
    match systemStep who y with
    | .next y' => systemRun rest y'
    | .fault f => .fault f
    | .refused r => .refused r

/-! ### "compute digest" (R97) -/

/-- The operations of ComputeDigest for the blocks of a padded message: INIT, then for each block in order
16 WRITE_M, COMPRESS and WAIT, then 32 READ_DIG. -/
def digestOps (bs : List (Vector Word 16)) : List HostOp :=
  sendInstr .init :: (bs.flatMap fun w => expandPseudo (.hashBlock w)) ++ expandPseudo .readDigest

/-- ComputeDigest: InputTooLarge "no command issued", or the operations (R97, R91). -/
def computeDigest (msg : List Byte) : Except HostError (List HostOp) :=
  match planSize msg.length with
  | .error e => .error e
  | .ok _ => .ok (digestOps (parseBlocks (padMessage msg)))

/-- `out[k] := READ_DIG k (rdata[7:0])`: the last 32 replies of ComputeDigest (R97). -/
def digestOut (ag : Agent) : List Byte :=
  (ag.log.drop (ag.log.length - 32)).map fun r => r.rdata.extractLsb' 0 8

/-- "Every transaction in it must return OK" (R97). -/
def allOk (ag : Agent) : Bool := ag.log.all fun r => decide (r.resp = .ok)

end Sys2Proof.Machine
end

