-- ==== Sys2Proof/Safety.lean ====
section
/-! DEFINITION. What the statements are about: the invariant of a running compression, what the host can tell two
states apart by, and infinite executions with the weak fairness of R89. -/

namespace Sys2Proof.Machine

/-! ### Invariant -/

/-- While BUSY = 1, with H and M those of the acceptance (nothing changes them then): W holds the block's schedule in
every entry written so far, and a .. h are the first t rounds over it from H (R74, R86). -/
def EngineInv (s : State) : Prop :=
  s.busy = true →
    (∀ i : Fin 64, i.val < max 16 s.t.val → s.W[i] = (schedule s.M)[i]) ∧
      s.vars = rounds (schedule s.M) s.t.val (seed s.H)

/-! ### What the host can tell apart -/

/-- Two states the host cannot tell apart: the hidden state W, a .. h, t may differ while BUSY = 0, and the W entries
of an earlier block may differ while BUSY = 1 (R23, R86). -/
def HostAgree (s u : State) : Prop :=
  s.H = u.H ∧ s.M = u.M ∧ s.busy = u.busy ∧ s.errIllegal = u.errIllegal ∧ s.errBusy = u.errBusy ∧
    s.turns = u.turns ∧ s.reply = u.reply ∧
      (s.busy = true →
        s.t = u.t ∧ s.vars = u.vars ∧ ∀ i : Fin 64, i.val < max 16 s.t.val → s.W[i] = u.W[i])

/-! ### Errors -/

/-- No error is recorded in STATUS (R101). -/
def noError (s : State) : Bool := !s.errIllegal && !s.errBusy

/-- The commands that are accepted while BUSY = 1 (R71, D9). -/
def acceptedWhileBusy : Instr → Bool
  | .nop => true
  | .readStatus => true
  | .clearErr => true
  | .init => false
  | .writeM _ _ => false
  | .readM _ => false
  | .compress => false
  | .readH _ => false
  | .readDig _ => false

/-! ### Turns -/

/-- A turn of the environment. -/
def Turn.isReset : Turn → Bool
  | .reset => true
  | .engine => false
  | .host _ _ => false

/-- A turn of the engine. -/
def Turn.isEngine : Turn → Bool
  | .engine => true
  | .reset => false
  | .host _ _ => false

/-- `k` steps of the machine. -/
def runSteps (k : Nat) (s : State) : Host.Outcome State Fault Refusal := Host.Core.run Sys2Proof.core k s

/-! ### Encodings -/

/-- A command without an index (format N): `pattern` alone decodes to it, and any other word with its opcode gets the
response ILLEGAL (R45, R49, R102). -/
def EncodedAlone (op : BitVec 8) (pattern : Word) (i : Instr) : Prop :=
  ∀ cmd wdata, (decode cmd wdata = some i ↔ cmd = pattern) ∧
    (opcField cmd = op → cmd ≠ pattern →
      ∀ s, transact cmd wdata s = .next { s with errIllegal := true, reply := some ⟨.illegal, 0⟩ })

/-- A command with an index of `k` bits: `pattern | idx` decodes to it, and a word with its opcode and a bit of
`cmd[23:k]` set gets the response ILLEGAL (R45, R49, R102). -/
def EncodedIndexed (op : BitVec 8) (pattern : Word) (k : Nat) (i : Fin (2 ^ k) → Word → Instr) : Prop :=
  (∀ idx wdata, decode (pattern ||| BitVec.ofNat 32 idx.val) wdata = some (i idx wdata)) ∧
    ∀ cmd wdata, opcField cmd = op → cmd.extractLsb' k (24 - k) ≠ 0 →
      ∀ s, transact cmd wdata s = .next { s with errIllegal := true, reply := some ⟨.illegal, 0⟩ }

/-! ### The definitions of the constants -/

/-- The primes below `n`, by trial division. -/
def primesBelow (n : Nat) : List Nat :=
  (List.range n).filter fun p => decide (2 ≤ p) && (List.range p).all fun d => decide (d < 2) || p % d != 0

/-- `w` is the first 32 fractional bits of the k-th root of `p`: the low 32 bits of the floor of that root times 2^32
(R69, R70). -/
def IsRootFraction (k p : Nat) (w : Word) : Prop :=
  ∃ n, n ^ k ≤ p * 2 ^ (32 * k) ∧ p * 2 ^ (32 * k) < (n + 1) ^ k ∧ w.toNat = n % 2 ^ 32

/-! ### Infinite executions -/

/-- An infinite execution of the core: state n takes turn n and becomes state n + 1 (R36). -/
def IsExecution (σ : Nat → Turn) (x : Nat → State) : Prop :=
  ∀ n, takeTurn (σ n) (x n) = .next (x (n + 1))

/-- Weak fairness, "if BUSY stays 1, the engine eventually takes its next step" (R89):
notes/assumptions/15.md. -/
def WeaklyFair (σ : Nat → Turn) (x : Nat → State) : Prop :=
  ∀ n, (∀ m, n ≤ m → (x m).busy = true) → ∃ m, n ≤ m ∧ σ m = .engine

/-- An infinite execution of host and core. -/
def IsSystemExecution (σ : Nat → Actor) (y : Nat → System) : Prop :=
  ∀ n, systemStep (σ n) (y n) = .next (y (n + 1))

/-- Weak fairness of the engine for host and core (R89). -/
def EngineFair (σ : Nat → Actor) (y : Nat → System) : Prop :=
  ∀ n, (∀ m, n ≤ m → (y m).core.busy = true) → ∃ m, n ≤ m ∧ σ m = .engine

/-- The host goes on: a host with operations left takes its next transaction in the end. -/
def HostProceeds (σ : Nat → Actor) (y : Nat → System) : Prop :=
  ∀ n, (y n).agent.code ≠ [] → ∃ m, n ≤ m ∧ σ m = .host

end Sys2Proof.Machine
end

