-- ==== Sys2Proof/Certificates/Slice0/Obligations.lean ====
section
/-! DEFINITION. The statements about the model, one `def Obligations.<Name> : Prop` each; the rule a statement
formalises is named in its docstring and in OBLIGATIONS.json. -/

open Sys2Proof Sys2Proof.Machine

/-! ### Encoding -/

/-- The decoder on the words of spec/95_test_vectors.md §2.6, written out there. -/
def Obligations.DecoderOnTheSpecsWords : Prop :=
  ∀ wdata : Word,
    decode 0x00000000 wdata = some .nop ∧ decode 0x00000001 wdata = none ∧
    decode 0x01000000 wdata = some .init ∧ decode 0x01000100 wdata = none ∧
    decode 0x02000000 wdata = some (.writeM 0 wdata) ∧ decode 0x0200000f wdata = some (.writeM 15 wdata) ∧
    decode 0x02000010 wdata = none ∧ decode 0x02800003 wdata = none ∧
    decode 0x03000005 wdata = some (.readM 5) ∧
    decode 0x04000000 wdata = some .compress ∧ decode 0x04800000 wdata = none ∧
    decode 0x05000007 wdata = some (.readH 7) ∧ decode 0x05000008 wdata = none ∧
    decode 0x06000000 wdata = some (.readDig 0) ∧ decode 0x0600001f wdata = some (.readDig 31) ∧
    decode 0x06000020 wdata = none ∧
    decode 0x07000000 wdata = some .readStatus ∧ decode 0x08000000 wdata = some .clearErr ∧
    decode 0x09000000 wdata = none ∧ decode 0x80000000 wdata = none ∧ decode 0xff000000 wdata = none

/-- Decoding the encoded words of any command gives it back, every index and every value (R47, R48, R53). -/
def Obligations.DecodeOfEncodeIsTheCommand : Prop :=
  ∀ i : Instr, decode (encode i).1 (encode i).2 = some i

/-- The other direction: a legal word is the encoding of what it decodes to, and `wdata` is kept by WRITE_M and by no
other command (R46, R47). -/
def Obligations.EncodeOfDecodedWordIsTheWord : Prop :=
  ∀ (cmd wdata : Word) (i : Instr), decode cmd wdata = some i →
    (encode i).1 = cmd ∧ (encode i).2 = if i.mnemonic = .writeM then wdata else 0

/-- The illegal words are exactly those R49 lists, and each gets ILLEGAL, ERR_ILLEGAL and nothing else. -/
def Obligations.IllegalWordsAreTheListedOnes : Prop :=
  ∀ cmd wdata : Word,
    (decode cmd wdata = none ↔
      (9 ≤ (opcField cmd).toNat ∨ rsvField cmd ≠ 0 ∨
        (((opcField cmd).toNat = 0 ∨ (opcField cmd).toNat = 1 ∨ (opcField cmd).toNat = 4 ∨
          (opcField cmd).toNat = 7 ∨ (opcField cmd).toNat = 8) ∧ idxField cmd ≠ 0) ∨
        (((opcField cmd).toNat = 2 ∨ (opcField cmd).toNat = 3) ∧ (idxField cmd).extractLsb' 4 4 ≠ 0) ∨
        ((opcField cmd).toNat = 5 ∧ (idxField cmd).extractLsb' 3 5 ≠ 0) ∨
        ((opcField cmd).toNat = 6 ∧ (idxField cmd).extractLsb' 5 3 ≠ 0))) ∧
    (decode cmd wdata = none → ∀ s : State,
      transact cmd wdata s = .next { s with errIllegal := true, reply := some ⟨.illegal, 0⟩ })

/-- No two rows of the opcode map select one word (R47, R48). -/
def Obligations.WordSelectsAtMostOneRow : Prop :=
  ∀ (w : Word) (r q : OpRow), r ∈ opcodeMap → q ∈ opcodeMap →
    r.selects w = true → q.selects w = true → r = q

/-! ### Steps -/

/-- A host transaction whose word decodes to a command is that command's `exec`, on the state with the transaction
taken off the list (R36, R71; `turns` is the model's own, notes/assumptions/3.md). -/
def Obligations.StepRunsTheDecodedCommand : Prop :=
  ∀ (s : State) (cmd wdata : Word) (rest : List Turn) (i : Instr),
    s.turns = .host cmd wdata :: rest → decode cmd wdata = some i →
      step s = exec i { s with turns := rest }

/-- An instruction placed by `withFetchWord` is the one the next step runs (notes/assumptions/7.md). -/
def Obligations.StepRunsThePlacedInstruction : Prop :=
  ∀ (s : State) (nbits w : Nat) (i : Instr), decodeTableWord nbits w = some i →
    step (s.withFetchWord nbits w) = exec i s

/-- The other turns: an illegal word, the engine, the reset; with nothing listed the engine moves while BUSY = 1 and
else the core holds its state (R85, R102, R117; notes/assumptions/3.md, 4.md). -/
def Obligations.StepTakesTheListedTurn : Prop :=
  ∀ (s : State) (rest : List Turn),
    (∀ cmd wdata, s.turns = .host cmd wdata :: rest → decode cmd wdata = none →
      step s = .next { s with turns := rest, errIllegal := true, reply := some ⟨.illegal, 0⟩ }) ∧
    (s.turns = .engine :: rest → step s = takeTurn .engine { s with turns := rest }) ∧
    (s.turns = .reset :: rest → step s = .next { State.reset with turns := rest }) ∧
    (s.turns = [] → s.busy = true → step s = takeTurn .engine s) ∧
    (s.turns = [] → s.busy = false → step s = .next s)

/-! ### Responses -/

/-- The response table of R50 for every transaction in every state: what each code says of the word, of BUSY and of the
state after. Code 3 is never returned. -/
def Obligations.ResponsesMeanWhatTheTableSays : Prop :=
  ∀ (cmd wdata : Word) (s : State), ∃ (t : State) (r : Reply),
    transact cmd wdata s = .next t ∧ t.reply = some r ∧
    (r.resp.code = 0 → ∃ i, decode cmd wdata = some i ∧ (s.busy = true → acceptedWhileBusy i = true) ∧
      exec i s = .next t) ∧
    (r.resp.code = 1 → decode cmd wdata = none ∧ t = { s with errIllegal := true, reply := some r }) ∧
    (r.resp.code = 2 → (∃ i, decode cmd wdata = some i ∧ acceptedWhileBusy i = false) ∧ s.busy = true ∧
      t = { s with errBusy := true, reply := some r }) ∧
    r.resp.code ≠ 3

/-- Exactly one response, ILLEGAL before BUSY before OK (R108). -/
def Obligations.IllegalWinsOverBusy : Prop :=
  ∀ (cmd wdata : Word) (s : State), ∃ (t : State) (r : Reply),
    transact cmd wdata s = .next t ∧ t.reply = some r ∧
    r.resp = (match decode cmd wdata with
      | none => .illegal
      | some i => if s.busy = true ∧ acceptedWhileBusy i = false then .busy else .ok)

/-- `rdata` is the read result of an accepted read and 0 in every other case (R51). -/
def Obligations.ReadDataOnlyFromAcceptedReads : Prop :=
  ∀ (cmd wdata : Word) (s : State), ∃ (t : State) (r : Reply),
    transact cmd wdata s = .next t ∧ t.reply = some r ∧
    (r.resp = .ok →
      (∀ idx, decode cmd wdata = some (.readM idx) → r.rdata = s.M[idx]) ∧
      (∀ idx, decode cmd wdata = some (.readH idx) → r.rdata = s.H[idx]) ∧
      (∀ idx : Fin 32, decode cmd wdata = some (.readDig idx) →
        (serialize s.H)[idx.val]? = some (r.rdata.setWidth 8) ∧ r.rdata.toNat < 256) ∧
      (decode cmd wdata = some .readStatus →
        r.rdata = BitVec.ofNat 32 (4 * s.errBusy.toNat + 2 * s.errIllegal.toNat + s.busy.toNat))) ∧
    (r.resp ≠ .ok ∨ (∀ i, decode cmd wdata = some i →
        i.mnemonic ≠ .readM ∧ i.mnemonic ≠ .readH ∧ i.mnemonic ≠ .readDig ∧ i.mnemonic ≠ .readStatus) →
      r.rdata = 0)

/-- The BUSY rejection of the six commands, and the three that never raise it (R103). -/
def Obligations.BusyRejectsTheSixCommands : Prop :=
  ∀ s : State, s.busy = true →
    (∀ i, i = .init ∨ i = .compress ∨ (∃ idx v, i = .writeM idx v) ∨ (∃ idx, i = .readM idx) ∨
        (∃ idx, i = .readH idx) ∨ (∃ idx, i = .readDig idx) →
      exec i s = .next { s with errBusy := true, reply := some ⟨.busy, 0⟩ }) ∧
    (∀ i, i = .nop ∨ i = .readStatus ∨ i = .clearErr →
      ∃ (t : State) (rdata : Word), exec i s = .next t ∧ t.reply = some ⟨.ok, rdata⟩ ∧ t.busy = true ∧
        t.H = s.H ∧ t.M = s.M ∧ t.W = s.W ∧ t.vars = s.vars ∧ t.t = s.t)

/-! ### Control commands -/

/-- NOP (R72), in every state. -/
def Obligations.NopReturnsOkAndChangesNothing : Prop :=
  EncodedAlone 0x00 0x00000000 .nop ∧
    ∀ s : State, exec .nop s = .next { s with reply := some ⟨.ok, 0⟩ }

/-- INIT (R73): its effect when idle with everything else unchanged, its rejection while busy, and that it is
idempotent and changes nothing right after reset. -/
def Obligations.InitLoadsTheInitialHash : Prop :=
  EncodedAlone 0x01 0x01000000 .init ∧
    (∀ s : State, s.busy = false →
      exec .init s = .next { s with
        H := #v[0x6A09E667, 0xBB67AE85, 0x3C6EF372, 0xA54FF53A, 0x510E527F, 0x9B05688C, 0x1F83D9AB, 0x5BE0CD19]
        reply := some ⟨.ok, 0⟩ }) ∧
    (∀ s : State, s.busy = true →
      exec .init s = .next { s with errBusy := true, reply := some ⟨.busy, 0⟩ }) ∧
    (∀ s t : State, exec .init s = .next t → exec .init t = .next t) ∧
    exec .init State.reset = .next { State.reset with reply := some ⟨.ok, 0⟩ }

/-- COMPRESS's acceptance (R74): W[0..15] from M, a .. h from H, t and BUSY, all else unchanged; rejected while busy. -/
def Obligations.CompressStartsTheEngine : Prop :=
  EncodedAlone 0x04 0x04000000 .compress ∧
    (∀ s : State, s.busy = false →
      ∃ W' : Vector Word 64,
        (∀ (j : Nat) (hj : j < 16), W'[j] = s.M[j]) ∧
        (∀ (j : Nat) (hj : j < 64), 16 ≤ j → W'[j] = s.W[j]) ∧
        exec .compress s = .next { s with
          W := W'
          vars := ⟨s.H[0], s.H[1], s.H[2], s.H[3], s.H[4], s.H[5], s.H[6], s.H[7]⟩
          t := 0
          busy := true
          reply := some ⟨.ok, 0⟩ }) ∧
    (∀ s : State, s.busy = true →
      exec .compress s = .next { s with errBusy := true, reply := some ⟨.busy, 0⟩ })

/-- READ_STATUS (R75, R17), in every state; an engine step between two polls changes only BUSY, from 1 to 0. -/
def Obligations.ReadStatusReturnsTheThreeBits : Prop :=
  EncodedAlone 0x07 0x07000000 .readStatus ∧
    (∀ s : State, exec .readStatus s = .next
      { s with
        reply := some
          ⟨.ok, BitVec.ofNat 32 (4 * s.errBusy.toNat + 2 * s.errIllegal.toNat + s.busy.toNat)⟩ }) ∧
    (∀ s t : State, takeTurn .engine s = .next t →
      t.errBusy = s.errBusy ∧ t.errIllegal = s.errIllegal ∧ (t.busy = true → s.busy = true))

/-- CLEAR_ERR (R76), in every state; BUSY and the running compression are not disturbed. -/
def Obligations.ClearErrClearsTheStickyBits : Prop :=
  EncodedAlone 0x08 0x08000000 .clearErr ∧
    ∀ s : State, exec .clearErr s =
      .next { s with errIllegal := false, errBusy := false, reply := some ⟨.ok, 0⟩ }

/-! ### Data commands -/

/-- WRITE_M (R79): the one word when idle, nothing while busy, and the last of two values stays. -/
def Obligations.WriteMStoresOneWord : Prop :=
  EncodedIndexed 0x02 0x02000000 4 (fun idx wdata => .writeM idx wdata) ∧
    (∀ (s : State) (idx : Fin 16) (v : Word), s.busy = false →
      ∃ M' : Vector Word 16, M'[idx] = v ∧ (∀ j : Fin 16, j ≠ idx → M'[j] = s.M[j]) ∧
        exec (.writeM idx v) s = .next { s with M := M', reply := some ⟨.ok, 0⟩ }) ∧
    (∀ (s : State) (idx : Fin 16) (v : Word), s.busy = true →
      exec (.writeM idx v) s = .next { s with errBusy := true, reply := some ⟨.busy, 0⟩ }) ∧
    (∀ (s t : State) (idx : Fin 16) (u v : Word), s.busy = false → exec (.writeM idx u) s = .next t →
      exec (.writeM idx v) t = exec (.writeM idx v) s)

/-- READ_M (R80); M reads 0 after reset and is not changed by a compression. -/
def Obligations.ReadMReturnsTheBlockWord : Prop :=
  EncodedIndexed 0x03 0x03000000 4 (fun idx _ => .readM idx) ∧
    (∀ (s : State) (idx : Fin 16), s.busy = false →
      exec (.readM idx) s = .next { s with reply := some ⟨.ok, s.M[idx]⟩ }) ∧
    (∀ (s : State) (idx : Fin 16), s.busy = true →
      exec (.readM idx) s = .next { s with errBusy := true, reply := some ⟨.busy, 0⟩ }) ∧
    (∀ idx : Fin 16, exec (.readM idx) State.reset = .next { State.reset with reply := some ⟨.ok, 0⟩ }) ∧
    (∀ s t : State, exec .compress s = .next t ∨ takeTurn .engine s = .next t → t.M = s.M)

/-- READ_H (R81): live from H when idle, rejected while busy; IV after reset and after INIT. -/
def Obligations.ReadHReturnsTheHashWord : Prop :=
  EncodedIndexed 0x05 0x05000000 3 (fun idx _ => .readH idx) ∧
    (∀ (s : State) (idx : Fin 8), s.busy = false →
      exec (.readH idx) s = .next { s with reply := some ⟨.ok, s.H[idx]⟩ }) ∧
    (∀ (s : State) (idx : Fin 8), s.busy = true →
      exec (.readH idx) s = .next { s with errBusy := true, reply := some ⟨.busy, 0⟩ }) ∧
    (∀ (s t : State) (idx : Fin 8), s = State.reset ∨ (t.busy = false ∧ exec .init t = .next s) →
      exec (.readH idx) s = .next { s with reply := some ⟨.ok, Config.IVTABLE[idx]⟩ })

/-- READ_DIG (R82): byte `idx` of the serialized H, zero-extended, when idle; rejected while busy. -/
def Obligations.ReadDigReturnsTheDigestByte : Prop :=
  EncodedIndexed 0x06 0x06000000 5 (fun idx _ => .readDig idx) ∧
    (∀ (s : State) (idx : Fin 32), s.busy = false →
      ∃ b : Byte,
        b = (s.H[idx.val / 4]'(by omega)).extractLsb' (24 - 8 * (idx.val % 4)) 8 ∧
        (serialize s.H)[idx.val]? = some b ∧
        exec (.readDig idx) s = .next { s with reply := some ⟨.ok, b.setWidth 32⟩ }) ∧
    (∀ (s : State) (idx : Fin 32), s.busy = true →
      exec (.readDig idx) s = .next { s with errBusy := true, reply := some ⟨.busy, 0⟩ })

/-- The two views of the result agree (R29): READ_H j is BE32 of the READ_DIG bytes 4j .. 4j + 3. -/
def Obligations.DigestViewsAgree : Prop :=
  ∀ (s : State) (j : Fin 8), s.busy = false →
    ∃ b0 b1 b2 b3 : Byte,
      exec (.readDig ⟨4 * j.val, by omega⟩) s = .next { s with reply := some ⟨.ok, b0.setWidth 32⟩ } ∧
      exec (.readDig ⟨4 * j.val + 1, by omega⟩) s = .next { s with reply := some ⟨.ok, b1.setWidth 32⟩ } ∧
      exec (.readDig ⟨4 * j.val + 2, by omega⟩) s = .next { s with reply := some ⟨.ok, b2.setWidth 32⟩ } ∧
      exec (.readDig ⟨4 * j.val + 3, by omega⟩) s = .next { s with reply := some ⟨.ok, b3.setWidth 32⟩ } ∧
      exec (.readH j) s = .next { s with reply := some ⟨.ok, be32 b0 b1 b2 b3⟩ }

/-- A WRITE_M is seen by the very next READ_M, at its index and at no other (R36, R127). -/
def Obligations.ReadMSeesTheEarlierWrite : Prop :=
  ∀ (s t : State) (idx j : Fin 16) (v : Word), s.busy = false → exec (.writeM idx v) s = .next t →
    exec (.readM j) t = .next { t with reply := some ⟨.ok, if j = idx then v else s.M[j]⟩ }

/-- Every command but COMPRESS is idempotent, accepted or rejected; the reads change no state (R33). -/
def Obligations.CommandsButCompressAreIdempotent : Prop :=
  ∀ (i : Instr) (s t : State), exec i s = .next t →
    (i ≠ .compress → exec i t = .next t) ∧
    (s.busy = false → i.mnemonic = .readM ∨ i.mnemonic = .readH ∨ i.mnemonic = .readDig ∨
        i.mnemonic = .readStatus ∨ i.mnemonic = .nop → t = { s with reply := t.reply })

/-! ### Datapath -/

/-- `rotr` rotates over exactly 32 bits, with the corner cases of R56. -/
def Obligations.RotationIsOverThirtyTwoBits : Prop :=
  (∀ (x : Word) (n i : Nat), 1 ≤ n → n ≤ 31 → i < 32 →
    (rotr x n).getLsbD i = x.getLsbD ((i + n) % 32)) ∧
  rotr 0x00000001 1 = 0x80000000 ∧ rotr 0x80000000 31 = 0x00000001 ∧
  (∀ n, 1 ≤ n → n ≤ 31 → rotr 0xFFFFFFFF n = 0xFFFFFFFF ∧ rotr 0 n = 0)

/-- `shr` fills with zeros from bit 31 down, with the corner cases of R57. -/
def Obligations.ShiftFillsWithZeros : Prop :=
  (∀ (x : Word) (n i : Nat), 1 ≤ n → n ≤ 31 → i < 32 →
    (shr x n).getLsbD i = if i + n < 32 then x.getLsbD (i + n) else false) ∧
  shr 0xFFFFFFFF 3 = 0x1FFFFFFF ∧ shr 0xFFFFFFFF 10 = 0x003FFFFF ∧ shr 0x80000000 10 = 0x00200000

/-- The four sigma functions bit by bit (R58 to R61, through R56 and R57). -/
def Obligations.SigmaFunctionsBitByBit : Prop :=
  ∀ (x : Word) (i : Nat), i < 32 →
    (smallSigma0 x).getLsbD i =
      (x.getLsbD ((i + 7) % 32) ^^ x.getLsbD ((i + 18) % 32) ^^ (decide (i + 3 < 32) && x.getLsbD (i + 3))) ∧
    (smallSigma1 x).getLsbD i =
      (x.getLsbD ((i + 17) % 32) ^^ x.getLsbD ((i + 19) % 32) ^^ (decide (i + 10 < 32) && x.getLsbD (i + 10))) ∧
    (bigSigma0 x).getLsbD i =
      (x.getLsbD ((i + 2) % 32) ^^ x.getLsbD ((i + 13) % 32) ^^ x.getLsbD ((i + 22) % 32)) ∧
    (bigSigma1 x).getLsbD i =
      (x.getLsbD ((i + 6) % 32) ^^ x.getLsbD ((i + 11) % 32) ^^ x.getLsbD ((i + 25) % 32))

/-- Ch chooses and Maj takes the majority, bit by bit (R62, R63). -/
def Obligations.ChooseAndMajorityBitByBit : Prop :=
  ∀ (x y z : Word) (i : Nat), i < 32 →
    (ch x y z).getLsbD i = (if x.getLsbD i then y.getLsbD i else z.getLsbD i) ∧
    (maj x y z).getLsbD i =
      decide (2 ≤ (x.getLsbD i).toNat + (y.getLsbD i).toNat + (z.getLsbD i).toNat)

/-- The serializer gives 32 bytes, most significant byte of each word first (R28). -/
def Obligations.SerializerIsBigEndian : Prop :=
  ∀ H : Vector Word 8, (serialize H).length = 32 ∧
    ∀ (k : Nat) (hk : k < 32),
      (serialize H)[k]? = some ((H[k / 4]'(by omega)).extractLsb' (24 - 8 * (k % 4)) 8)

/-- The constants are what R69 and R70 say of them: the first 32 fractional bits of the cube roots of the first 64
primes and of the square roots of the first 8 (the values themselves: notes/assumptions/2.md). -/
def Obligations.ConstantsAreRootsOfPrimes : Prop :=
  (primesBelow 312).length = 64 ∧
  (∀ (i : Nat) (hi : i < 64) (p : Nat), (primesBelow 312)[i]? = some p →
    IsRootFraction 3 p Config.KTABLE[i]) ∧
  (∀ (i : Nat) (hi : i < 8) (p : Nat), (primesBelow 312)[i]? = some p →
    IsRootFraction 2 p Config.IVTABLE[i])

/-! ### Engine -/

/-- The engine round step (R86), with SchedTerm (R64) and Round (R65) written out; everything else is unchanged. -/
def Obligations.EngineRoundStepIsTheRound : Prop :=
  ∀ s : State, s.busy = true → ∀ ht : s.t.val < 64,
    ∃ (W' : Vector Word 64) (T1 T2 : Word),
      (∀ h16 : 16 ≤ s.t.val, W'[s.t.val] =
        smallSigma1 s.W[s.t.val - 2] + s.W[s.t.val - 7] + smallSigma0 s.W[s.t.val - 15] + s.W[s.t.val - 16]) ∧
      (s.t.val < 16 → W'[s.t.val] = s.W[s.t.val]) ∧
      (∀ (i : Nat) (hi : i < 64), i ≠ s.t.val → W'[i] = s.W[i]) ∧
      T1 = s.vars.h + bigSigma1 s.vars.e + ch s.vars.e s.vars.f s.vars.g + Config.KTABLE[s.t.val] +
        W'[s.t.val] ∧
      T2 = bigSigma0 s.vars.a + maj s.vars.a s.vars.b s.vars.c ∧
      takeTurn .engine s = .next { s with
        W := W'
        vars := ⟨T1 + T2, s.vars.a, s.vars.b, s.vars.c, s.vars.d + T1, s.vars.e, s.vars.f, s.vars.g⟩
        t := ⟨s.t.val + 1, by omega⟩ }

/-- The engine accumulate step (R87, R66): eight sums modulo 2^32 and BUSY, all else unchanged. -/
def Obligations.EngineAccumulatesIntoH : Prop :=
  ∀ s : State, s.busy = true → s.t = 64 →
    takeTurn .engine s = .next { s with
      H := #v[s.H[0] + s.vars.a, s.H[1] + s.vars.b, s.H[2] + s.vars.c, s.H[3] + s.vars.d,
              s.H[4] + s.vars.e, s.H[5] + s.vars.f, s.H[6] + s.vars.g, s.H[7] + s.vars.h]
      busy := false }

/-- The engine has a step exactly when BUSY = 1 (R85, R24): with BUSY = 0 its turn changes nothing, with BUSY = 1 it
always changes something, and t never passes 64. -/
def Obligations.EngineMovesExactlyWhileBusy : Prop :=
  ∀ s : State, (takeTurn .engine s = .next s ↔ s.busy = false) ∧
    ∀ t : State, takeTurn .engine s = .next t → s.t.val ≤ t.t.val ∧ t.t.val ≤ 64

/-! ### Reset and the whole machine -/

/-- Reset (R118): every element at its value, whatever the state before (a running compression included), no response,
and every legal command accepted afterwards. That the listed turns stay is the model's own
(notes/assumptions/3.md). -/
def Obligations.ResetSetsEveryElement : Prop :=
  (∀ s : State, takeTurn .reset s = .next
    { H := #v[0x6a09e667, 0xbb67ae85, 0x3c6ef372, 0xa54ff53a, 0x510e527f, 0x9b05688c, 0x1f83d9ab, 0x5be0cd19]
      M := Vector.replicate 16 0
      W := Vector.replicate 64 0
      vars := ⟨0, 0, 0, 0, 0, 0, 0, 0⟩
      t := 0
      busy := false
      errIllegal := false
      errBusy := false
      turns := s.turns
      reply := none }) ∧
  (∀ i : Instr, ∃ (t : State) (rdata : Word),
    exec i State.reset = .next t ∧ t.reply = some ⟨.ok, rdata⟩)

/-- The "written by" column of R11, element by element: which turn may change it, and to what a flag changes. -/
def Obligations.WritersOfEveryElement : Prop :=
  ∀ (turn : Turn) (s t : State), takeTurn turn s = .next t → turn ≠ .reset →
    (t.H ≠ s.H →
      (s.busy = false ∧ ∃ cmd wdata, turn = .host cmd wdata ∧ decode cmd wdata = some .init) ∨
      (s.busy = true ∧ s.t = 64 ∧ turn = .engine)) ∧
    (t.M ≠ s.M →
      s.busy = false ∧ ∃ cmd wdata idx, turn = .host cmd wdata ∧ decode cmd wdata = some (.writeM idx wdata)) ∧
    (t.W ≠ s.W ∨ t.vars ≠ s.vars ∨ t.t ≠ s.t →
      (s.busy = false ∧ ∃ cmd wdata, turn = .host cmd wdata ∧ decode cmd wdata = some .compress) ∨
      (s.busy = true ∧ s.t.val < 64 ∧ turn = .engine)) ∧
    (t.busy ≠ s.busy →
      (t.busy = true ∧ ∃ cmd wdata, turn = .host cmd wdata ∧ decode cmd wdata = some .compress) ∨
      (t.busy = false ∧ s.t = 64 ∧ turn = .engine)) ∧
    (t.errIllegal ≠ s.errIllegal → ∃ cmd wdata, turn = .host cmd wdata ∧
      ((t.errIllegal = true ∧ decode cmd wdata = none) ∨
        (t.errIllegal = false ∧ decode cmd wdata = some .clearErr))) ∧
    (t.errBusy ≠ s.errBusy → ∃ cmd wdata i, turn = .host cmd wdata ∧ decode cmd wdata = some i ∧
      ((t.errBusy = true ∧ s.busy = true ∧ acceptedWhileBusy i = false) ∨
        (t.errBusy = false ∧ i = .clearErr)))

/-- The error record of R101: along a run without CLEAR_ERR and without reset that ends with no error in STATUS, every
host transaction returned OK. -/
def Obligations.NoErrorAtTheEndMeansAllOk : Prop :=
  ∀ (s u : State) (ts rest : List Turn), s.turns = ts ++ rest →
    (∀ x ∈ ts, x.isReset = false ∧ ∀ cmd wdata, x = .host cmd wdata → decode cmd wdata ≠ some .clearErr) →
    runSteps ts.length s = .next u → noError u = true →
    ∀ (k : Nat) (cmd wdata : Word), ts[k]? = some (.host cmd wdata) →
      ∃ (v : State) (r : Reply), runSteps (k + 1) s = .next v ∧ v.reply = some r ∧ r.resp = .ok

/-- An idle core with nothing to come holds its state for ever (R117). -/
def Obligations.IdleCoreHoldsItsState : Prop :=
  ∀ (k : Nat) (s : State), s.turns = [] → s.busy = false → runSteps k s = .next s

/-! ### Invariants and whole runs -/

/-- The reset state has the engine's invariant. -/
def Obligations.EngineInvAtReset : Prop := EngineInv State.reset

/-- Every step of every agent keeps the engine's invariant: the partial work of a running compression is that of the
block in M from the chaining value in H (R74, R86, R88). -/
def Obligations.EveryStepKeepsEngineInv : Prop :=
  ∀ s t : State, EngineInv s → step s = .next t → EngineInv t

/-- The result of a compression under every interleaving (R88): after an accepted COMPRESS, whatever the host issues
between the engine's steps (no reset), BUSY stays 1 and H keeps its value through 64 engine steps, and the 65th
leaves `H = Compress(s.H, s.M)` and BUSY = 0. -/
def Obligations.EveryInterleavingCompresses : Prop :=
  ∀ (s c : State) (ts rest : List Turn), s.busy = false → exec .compress s = .next c →
    (∀ x ∈ ts, x.isReset = false) → ts.countP Turn.isEngine = 64 →
    ∃ m u : State,
      runSteps ts.length { c with turns := ts ++ .engine :: rest } = .next m ∧
      m.busy = true ∧ m.H = s.H ∧ m.M = s.M ∧ m.t = 64 ∧
      step m = .next u ∧
      u.busy = false ∧ u.H = compress s.H s.M ∧ u.M = s.M ∧ u.turns = rest

/-- The engine alone (R88, R89): with no turns listed, the steps left of a running compression lead to exactly this
state. That the engine moves when nothing is listed is the model's choice (notes/assumptions/4.md). -/
def Obligations.EngineAloneFinishesTheBlock : Prop :=
  ∀ s : State, EngineInv s → s.busy = true → s.turns = [] →
    runSteps (65 - s.t.val) s = .next { s with
      H := compress s.H s.M
      W := schedule s.M
      vars := rounds (schedule s.M) 64 (seed s.H)
      t := 64
      busy := false }

/-- Hidden state is hidden (R23, R116): two states the host cannot tell apart stay so, step by step, with the same
responses. -/
def Obligations.HiddenStateIsNeverObserved : Prop :=
  ∀ s u s' : State, HostAgree s u → step s = .next s' → ∃ u', step u = .next u' ∧ HostAgree s' u'

/-- Every wait ends (R89, R122): in every weakly fair execution BUSY is 0 again and again. -/
def Obligations.WaitEndsUnderWeakFairness : Prop :=
  ∀ (σ : Nat → Turn) (x : Nat → State), IsExecution σ x → WeaklyFair σ x →
    ∀ n, ∃ m, n ≤ m ∧ (x m).busy = false

/-! ### The host's duties -/

/-- The size planner's limit (R91): `L ≥ 2^61` raises InputTooLarge and no command is issued; every shorter length is
accepted. -/
def Obligations.TooLongMessagesAreRefused : Prop :=
  ∀ msg : List Byte,
    (2 ^ 61 ≤ msg.length → planSize msg.length = .error .inputTooLarge ∧
      computeDigest msg = .error .inputTooLarge) ∧
    (msg.length ≤ 2 ^ 61 - 1 → planSize msg.length = .ok (paddedLength msg.length) ∧
      computeDigest msg = .ok (digestOps (parseBlocks (padMessage msg))))

/-- The consequences of the planner's formula (R93), for every length. -/
def Obligations.PaddedLengthIsWholeBlocks : Prop :=
  ∀ L : Nat,
    zeroBits L % 8 = 7 ∧ zeroBits L ≤ 511 ∧
    paddedLength L = 64 * ((L + 8) / 64 + 1) ∧ paddedLength L % 64 = 0 ∧
    paddedLength L / 64 = (L + 8) / 64 + 1 ∧ 1 ≤ paddedLength L / 64 ∧
    L + 9 ≤ paddedLength L ∧ paddedLength L - L - 9 ≤ 63 ∧
    paddedLength L - L - 9 = (zeroBits L - 7) / 8

/-- The boundary case (R95): marker and length field adjacent exactly when `L mod 64 = 55`; 63 zero bytes when
`L mod 64 = 56`. -/
def Obligations.PaddingBoundaryIsFiftyFive : Prop :=
  ∀ L : Nat, (paddedLength L - L - 9 = 0 ↔ L % 64 = 55) ∧ (L % 64 = 56 → paddedLength L - L - 9 = 63)

/-- The padded buffer byte by byte, and its length (R94). -/
def Obligations.PaddedBufferByteByByte : Prop :=
  ∀ msg : List Byte, (padMessage msg).length = paddedLength msg.length ∧ (padMessage msg).length % 64 = 0 ∧
    ∀ k : Nat, k < paddedLength msg.length →
      (k < msg.length → (padMessage msg)[k]? = msg[k]?) ∧
      (k = msg.length → (padMessage msg)[k]? = some 0x80) ∧
      (msg.length < k → k < paddedLength msg.length - 8 → (padMessage msg)[k]? = some 0x00) ∧
      (∀ i, i < 8 → k = paddedLength msg.length - 8 + i →
        (padMessage msg)[k]? =
          some ((BitVec.ofNat 64 (msg.length * 8)).extractLsb' (56 - 8 * i) 8))

/-- The blocks of a buffer and their words (R96, R26). -/
def Obligations.BlockWordsAreBigEndian : Prop :=
  ∀ (buf : List Byte) (i j : Nat), i < buf.length / 64 → ∀ hj : j < 16,
    (parseBlocks buf).length = buf.length / 64 ∧
    ∃ (b : Vector Word 16) (b0 b1 b2 b3 : Byte),
      (parseBlocks buf)[i]? = some b ∧
      buf[i * 64 + 4 * j]? = some b0 ∧ buf[i * 64 + 4 * j + 1]? = some b1 ∧
      buf[i * 64 + 4 * j + 2]? = some b2 ∧ buf[i * 64 + 4 * j + 3]? = some b3 ∧
      b[j].toNat = b0.toNat * 2 ^ 24 + b1.toNat * 2 ^ 16 + b2.toNat * 2 ^ 8 + b3.toNat

/-- The length field as words of the last block (R27): `M[14] = (L*8)[63:32]` and `M[15] = (L*8)[31:0]`. -/
def Obligations.LastBlockEndsWithTheLength : Prop :=
  ∀ msg : List Byte, ∃ b : Vector Word 16,
    (parseBlocks (padMessage msg)).getLast? = some b ∧
    b[14] = (BitVec.ofNat 64 (msg.length * 8)).extractLsb' 32 32 ∧
    b[15] = (BitVec.ofNat 64 (msg.length * 8)).extractLsb' 0 32

/-- Lines within their ranges assemble to words that decode to their command; others are refused (R53). -/
def Obligations.AssembledLinesDecodeToTheirCommand : Prop :=
  (∀ (idx v : Nat) (h : idx < 16), v < 2 ^ 32 → ∃ w, assembleLine (.writeM idx v) = some w ∧
    decode w.1 w.2 = some (.writeM ⟨idx, h⟩ (BitVec.ofNat 32 v))) ∧
  (∀ (idx : Nat) (h : idx < 16), ∃ w, assembleLine (.readM idx) = some w ∧
    decode w.1 w.2 = some (.readM ⟨idx, h⟩)) ∧
  (∀ (idx : Nat) (h : idx < 8), ∃ w, assembleLine (.readH idx) = some w ∧
    decode w.1 w.2 = some (.readH ⟨idx, h⟩)) ∧
  (∀ (idx : Nat) (h : idx < 32), ∃ w, assembleLine (.readDig idx) = some w ∧
    decode w.1 w.2 = some (.readDig ⟨idx, h⟩)) ∧
  (∀ idx v : Nat, 16 ≤ idx ∨ 2 ^ 32 ≤ v → assembleLine (.writeM idx v) = none) ∧
  (∀ idx : Nat, (16 ≤ idx → assembleLine (.readM idx) = none) ∧ (8 ≤ idx → assembleLine (.readH idx) = none) ∧
    (32 ≤ idx → assembleLine (.readDig idx) = none))

/-- "compute digest" written as a host program of lines and pseudo-instructions (R54, R97) assembles to the operations
the host agent runs. -/
def Obligations.ComputeDigestIsAHostProgram : Prop :=
  ∀ bs : List (Vector Word 16),
    assembleProgram (.line .init :: bs.map (fun w => Stmt.pseudo (.hashBlock w)) ++ [.pseudo .readDigest]) =
      some (digestOps bs)

/-- The result of "compute digest" (R97, R98, R100): from any idle core, under every interleaving of host and engine
without reset, a host that has finished holds the 32 bytes of the digest of its message, every reply was OK, BUSY is
0 and H is the digest as words. -/
def Obligations.ComputeDigestReturnsTheDigest : Prop :=
  ∀ (msg : List Byte) (ops : List HostOp) (core : State) (who : List Actor) (y : System),
    computeDigest msg = .ok ops → core.busy = false → (∀ a ∈ who, a ≠ .reset) →
    systemRun who ⟨core, ⟨ops, []⟩⟩ = .next y → y.agent.code = [] →
      digestOut y.agent = sha256 msg ∧ (digestOut y.agent).length = 32 ∧ allOk y.agent = true ∧
      y.core.busy = false ∧ y.core.H = hashBlocks Config.IVTABLE (parseBlocks (padMessage msg))

/-- Every host program ends (R89, R122): whatever it issues, with an engine treated fairly and a host that goes on, it
reaches its end; "compute digest" is one. In executions with a reset it rests on the model's choice that the host
goes on after it (notes/assumptions/17.md). -/
def Obligations.EveryHostProgramEnds : Prop :=
  ∀ (σ : Nat → Actor) (y : Nat → System), IsSystemExecution σ y → EngineFair σ y → HostProceeds σ y →
    ∃ n, (y n).agent.code = []
end

