-- ==== Sys2Proof/Laws/Datapath.lean ====
section
/-! SUPPORT. The spec lemmas of the datapath: what each entry of the schedule is, and how the rounds unfold. -/

namespace Sys2Proof.Machine

/-! ### Entries of the schedule -/

theorem loadAt_get (M : Vector Word 16) (W : Vector Word 64) (t i : Nat) (hi : i < 64) :
    (loadAt M W t)[i] = if h : t = i ∧ i < 16 then M[i] else W[i] := by
  unfold loadAt
  split
  · rename_i ht
    rw [Vector.getElem_set]
    by_cases hti : t = i
    · subst hti; simp [ht]
    · simp [hti]
  · rename_i ht
    have hn : ¬ (t = i ∧ i < 16) := by omega
    rw [dif_neg hn]

/-- After the first `n` words are loaded, the entries below `n` are the block's words. -/
theorem load_foldl_get (M : Vector Word 16) (W : Vector Word 64) (n i : Nat) (hi : i < 64) :
    ((List.range n).foldl (loadAt M) W)[i] = if h : i < n ∧ i < 16 then M[i] else W[i] := by
  induction n with
  | zero => simp
  | succ n ih =>
    simp only [List.range_succ, List.foldl_append, List.foldl_cons, List.foldl_nil]
    rw [loadAt_get, ih]
    by_cases hn : n = i ∧ i < 16
    · rw [dif_pos hn, dif_pos ⟨by omega, hn.2⟩]
    · rw [dif_neg hn]
      by_cases hlt : i < n ∧ i < 16
      · rw [dif_pos hlt, dif_pos ⟨by omega, hlt.2⟩]
      · rw [dif_neg hlt, dif_neg (by omega)]

theorem loadBlock_get_low (W : Vector Word 64) (M : Vector Word 16) (i : Nat) (hi : i < 16) :
    (loadBlock W M)[i] = M[i] := by
  unfold loadBlock
  rw [load_foldl_get, dif_pos ⟨hi, hi⟩]

theorem loadBlock_get_high (W : Vector Word 64) (M : Vector Word 16) (i : Nat) (hi : i < 64)
    (h : 16 ≤ i) : (loadBlock W M)[i] = W[i] := by
  unfold loadBlock
  rw [load_foldl_get, dif_neg (by omega)]

theorem expandAt_get_ne (W : Vector Word 64) (t i : Nat) (hi : i < 64) (h : t ≠ i) :
    (expandAt W t)[i] = W[i] := by
  unfold expandAt
  split
  · exact Vector.getElem_set_ne _ _ h
  · rfl

theorem expandAt_get_self (W : Vector Word 64) (t : Nat) (ht : 16 ≤ t ∧ t < 64) :
    (expandAt W t)[t] = schedTerm W t ht := by
  unfold expandAt
  rw [dif_pos ht]
  exact Vector.getElem_set_self _

/-- SchedTerm reads only entries below t (R64). -/
theorem schedTerm_congr (V W : Vector Word 64) (t : Nat) (ht : 16 ≤ t ∧ t < 64)
    (h : ∀ i : Fin 64, i.val < t → V[i] = W[i]) : schedTerm V t ht = schedTerm W t ht := by
  have at' (k : Nat) (hk : k < t) : V[k] = W[k] := h ⟨k, by omega⟩ hk
  unfold schedTerm
  rw [at' (t - 2) (by omega), at' (t - 7) (by omega), at' (t - 15) (by omega),
    at' (t - 16) (by omega)]

theorem scheduleFrom_zero (W : Vector Word 64) (M : Vector Word 16) :
    scheduleFrom W M 0 = loadBlock W M := by simp [scheduleFrom]

theorem scheduleFrom_succ (W : Vector Word 64) (M : Vector Word 16) (n : Nat) :
    scheduleFrom W M (n + 1) = expandAt (scheduleFrom W M n) n := by
  simp [scheduleFrom, List.range_succ]

/-- An entry that is written stays: later expansions leave it. -/
theorem scheduleFrom_get_stable (W : Vector Word 64) (M : Vector Word 16) {n m : Nat} (hnm : n ≤ m) (i : Nat)
    (hi : i < 64) (h : i < n) : (scheduleFrom W M m)[i] = (scheduleFrom W M n)[i] := by
  induction m, hnm using Nat.le_induction with
  | base => rfl
  | succ m hnm ih => rw [scheduleFrom_succ, expandAt_get_ne _ _ _ _ (by omega), ih]

theorem scheduleFrom_get_low (W : Vector Word 64) (M : Vector Word 16) (n i : Nat) (hi : i < 16) :
    (scheduleFrom W M n)[i] = M[i] := by
  induction n with
  | zero => rw [scheduleFrom_zero, loadBlock_get_low _ _ _ hi]
  | succ n ih =>
    rw [scheduleFrom_succ]
    by_cases hn : n = i
    · have e : expandAt (scheduleFrom W M n) n = scheduleFrom W M n := by
        unfold expandAt
        exact dif_neg (by omega)
      rw [e, ih]
    · rw [expandAt_get_ne _ _ _ _ hn, ih]

theorem scheduleFrom_get_high (W : Vector Word 64) (M : Vector Word 16) {n : Nat} (t : Nat)
    (ht : 16 ≤ t ∧ t < 64) (hn : t < n) :
    (scheduleFrom W M n)[t] = schedTerm (scheduleFrom W M n) t ht := by
  rw [scheduleFrom_get_stable W M (show t + 1 ≤ n by omega) t ht.2 (by omega), scheduleFrom_succ,
    expandAt_get_self _ _ ht]
  apply schedTerm_congr
  intro i hi
  exact (scheduleFrom_get_stable W M (show t ≤ n by omega) i.val i.isLt hi).symm

/-- The first sixteen entries are the block's words (R67). -/
theorem schedule_get_low (M : Vector Word 16) (i : Nat) (hi : i < 16) :
    (schedule M)[i] = M[i] := scheduleFrom_get_low _ M 64 i hi

/-- Every later entry is the schedule term of the entries before it (R64, R67). -/
theorem schedule_get_high (M : Vector Word 16) (t : Nat) (ht : 16 ≤ t ∧ t < 64) :
    (schedule M)[t] = schedTerm (schedule M) t ht := scheduleFrom_get_high _ M t ht ht.2

/-- Entries that agree with a block's schedule below `max 16 t` agree below `max 16 (t + 1)` once entry t is
expanded, whatever the other entries are. -/
theorem expandAt_extends_schedule (W : Vector Word 64) (M : Vector Word 16) (t : Nat) (ht : t < 64)
    (h : ∀ i : Fin 64, i.val < max 16 t → W[i] = (schedule M)[i]) :
    ∀ i : Fin 64, i.val < max 16 (t + 1) → (expandAt W t)[i] = (schedule M)[i] := by
  intro i hi
  by_cases hit : t = i.val
  · by_cases h16 : 16 ≤ t
    · have e : (expandAt W t)[t] = (schedule M)[t] := by
        rw [expandAt_get_self _ _ ⟨h16, ht⟩, schedule_get_high _ _ ⟨h16, ht⟩]
        exact schedTerm_congr _ _ _ _ fun k hk => h k (by omega)
      simpa [hit] using e
    · have : expandAt W t = W := by unfold expandAt; rw [dif_neg (by omega)]
      rw [this]
      exact h i (by omega)
  · have e : (expandAt W t)[i] = W[i] := expandAt_get_ne W t i.val i.isLt hit
    rw [e]
    exact h i (by omega)

/-! ### Constants -/

/-- Word j of a printed row is its j-th group of 32 bits from the left (R69). -/
theorem tableRow_get (row : BitVec 256) (j : Nat) (hj : j < 8) :
    (Config.tableRow row)[j] = row.extractLsb' (32 * (7 - j)) 32 := by
  simp [Config.tableRow]

/-! ### Rounds -/

theorem rounds_zero (W : Vector Word 64) (v : Vars) : rounds W 0 v = v := rfl

theorem rounds_succ (W : Vector Word 64) (n : Nat) (v : Vars) :
    rounds W (n + 1) v = roundAt W (rounds W n v) n := by
  simp [rounds, List.range_succ]

/-- Round t reads entry t of the schedule only (R86). -/
theorem roundAt_congr (V W : Vector Word 64) (v : Vars) (t : Nat)
    (h : ∀ ht : t < 64, V[t] = W[t]) : roundAt V v t = roundAt W v t := by
  unfold roundAt
  split
  · rename_i ht
    rw [h ht]
  · rfl

theorem add32_eq_add (x y : Word) : add32 x y = x + y := by
  apply BitVec.eq_of_toNat_eq
  simp [add32]

end Sys2Proof.Machine
end

