-- ==== Sys2Proof/Laws/Decode.lean ====
section
/-! SUPPORT. The decoder in arithmetic: which numbers select which row, and the fields of a word as numbers. Proofs
about legal words go through `decode_eq` and `omega`. -/

namespace Sys2Proof

/-! ### Masks -/

/-- A mask that keeps the bits from `k` up is a shift right and back. -/
theorem and_highMask (w m : Word) (k : Nat) (hm : ∀ i (hi : i < 32), m[i] = decide (k ≤ i)) :
    w &&& m = (w >>> k) <<< k := by
  ext i hi
  simp only [BitVec.getElem_and, BitVec.getElem_shiftLeft, BitVec.getElem_ushiftRight, hm i hi]
  by_cases h : i < k
  · simp [h]
  · simp [h, show k ≤ i by omega, show k + (i - k) = i by omega, BitVec.getLsbD_eq_getElem, hi]

theorem and_mask0 (w : Word) : w &&& (0xFFFFFFFF : Word) = (w >>> 0) <<< 0 :=
  and_highMask w _ 0 (by decide)

theorem and_mask3 (w : Word) : w &&& (0xFFFFFFF8 : Word) = (w >>> 3) <<< 3 :=
  and_highMask w _ 3 (by decide)

theorem and_mask4 (w : Word) : w &&& (0xFFFFFFF0 : Word) = (w >>> 4) <<< 4 :=
  and_highMask w _ 4 (by decide)

theorem and_mask5 (w : Word) : w &&& (0xFFFFFFE0 : Word) = (w >>> 5) <<< 5 :=
  and_highMask w _ 5 (by decide)

/-- A shift right and back compared with a pattern, in numbers. -/
theorem shiftBack_beq (w p : Word) (k : Nat) :
    ((w >>> k) <<< k == p) = decide (w.toNat / 2 ^ k * 2 ^ k = p.toNat) := by
  rw [Bool.eq_iff_iff]
  simp only [beq_iff_eq, decide_eq_true_eq]
  rw [← BitVec.toNat_inj]
  simp only [BitVec.toNat_shiftLeft, BitVec.toNat_ushiftRight, Nat.shiftRight_eq_div_pow, Nat.shiftLeft_eq]
  rw [Nat.mod_eq_of_lt]
  exact lt_of_le_of_lt (Nat.div_mul_le_self _ _) w.isLt

/-! ### Rows and commands -/

theorem find?_cons_ite {α : Type} (f : α → Bool) (a : α) (l : List α) :
    (a :: l).find? f = if f a = true then some a else l.find? f := by
  rw [List.find?_cons]
  cases f a <;> rfl

/-- Which words select which row, as numbers. -/
theorem rowOf_eq (w : Word) : rowOf w =
    if w.toNat = 0 then some ⟨.nop, .n, 0x00000000, 0xFFFFFFFF⟩
    else if w.toNat = 0x01000000 then some ⟨.init, .n, 0x01000000, 0xFFFFFFFF⟩
    else if w.toNat / 16 * 16 = 0x02000000 then some ⟨.writeM, .i4, 0x02000000, 0xFFFFFFF0⟩
    else if w.toNat / 16 * 16 = 0x03000000 then some ⟨.readM, .i4, 0x03000000, 0xFFFFFFF0⟩
    else if w.toNat = 0x04000000 then some ⟨.compress, .n, 0x04000000, 0xFFFFFFFF⟩
    else if w.toNat / 8 * 8 = 0x05000000 then some ⟨.readH, .i3, 0x05000000, 0xFFFFFFF8⟩
    else if w.toNat / 32 * 32 = 0x06000000 then some ⟨.readDig, .i5, 0x06000000, 0xFFFFFFE0⟩
    else if w.toNat = 0x07000000 then some ⟨.readStatus, .n, 0x07000000, 0xFFFFFFFF⟩
    else if w.toNat = 0x08000000 then some ⟨.clearErr, .n, 0x08000000, 0xFFFFFFFF⟩
    else none := by
  unfold rowOf opcodeMap
  simp only [find?_cons_ite, OpRow.selects, and_mask0, and_mask3, and_mask4, and_mask5, shiftBack_beq,
    List.find?_nil, decide_eq_true_eq, pow_zero, Nat.div_one, Nat.mul_one]
  rfl

/-- What each word decodes to, as numbers. -/
theorem decode_eq (w d : Word) : decode w d =
    if w.toNat = 0 then some .nop
    else if w.toNat = 0x01000000 then some .init
    else if w.toNat / 16 * 16 = 0x02000000 then some (.writeM (idx4 w) d)
    else if w.toNat / 16 * 16 = 0x03000000 then some (.readM (idx4 w))
    else if w.toNat = 0x04000000 then some .compress
    else if w.toNat / 8 * 8 = 0x05000000 then some (.readH (idx3 w))
    else if w.toNat / 32 * 32 = 0x06000000 then some (.readDig (idx5 w))
    else if w.toNat = 0x07000000 then some .readStatus
    else if w.toNat = 0x08000000 then some .clearErr
    else none := by
  unfold decode
  rw [rowOf_eq]
  simp only [apply_ite (Option.map _), Option.map_some, Option.map_none, build]

/-! ### Fields as numbers -/

theorem extractLsb'_toNat_eq (w : Word) (s n : Nat) :
    (w.extractLsb' s n).toNat = w.toNat / 2 ^ s % 2 ^ n := by
  simp [BitVec.extractLsb'_toNat, Nat.shiftRight_eq_div_pow]

theorem opcField_toNat (w : Word) : (opcField w).toNat = w.toNat / 2 ^ 24 % 2 ^ 8 :=
  extractLsb'_toNat_eq w 24 8

theorem rsvField_toNat (w : Word) : (rsvField w).toNat = w.toNat / 2 ^ 8 % 2 ^ 16 :=
  extractLsb'_toNat_eq w 8 16

theorem idxField_toNat (w : Word) : (idxField w).toNat = w.toNat % 2 ^ 8 := by
  simp [idxField]

theorem idx4_val (w : Word) : (idx4 w).val = w.toNat % 16 := by
  simp [idx4]

theorem idx3_val (w : Word) : (idx3 w).val = w.toNat % 8 := by
  simp [idx3]

theorem idx5_val (w : Word) : (idx5 w).val = w.toNat % 32 := by
  simp [idx5]

/-- A pattern with its low `k` bits clear, with an index of `k` bits put in (R53), as a number. -/
theorem pattern_or_toNat (p : Word) (k n : Nat) (hp : p.toNat % 2 ^ k = 0) (hn : n < 2 ^ k) (hk : k ≤ 5) :
    (p ||| BitVec.ofNat 32 n).toNat = p.toNat + n := by
  have hk' : 2 ^ k ≤ 2 ^ 5 := Nat.pow_le_pow_right (by decide) hk
  have hmod : n % 2 ^ 32 = n := Nat.mod_eq_of_lt (by omega)
  have hd : p.toNat = 2 ^ k * (p.toNat / 2 ^ k) := by
    have := Nat.div_add_mod p.toNat (2 ^ k)
    omega
  rw [BitVec.toNat_or, BitVec.toNat_ofNat, hmod, hd, ← Nat.two_pow_add_eq_or_of_lt hn]

end Sys2Proof
end

