-- ==== Sys2Proof/Laws/State.lean ====
section
/-! SUPPORT. What each update of the state leaves and writes, field by field. -/

namespace Sys2Proof.Machine

/-! ### `answer` -/

@[simp] theorem answer_H (rdata : Word) (s : State) : (answer rdata s).H = s.H := rfl
@[simp] theorem answer_M (rdata : Word) (s : State) : (answer rdata s).M = s.M := rfl
@[simp] theorem answer_W (rdata : Word) (s : State) : (answer rdata s).W = s.W := rfl
@[simp] theorem answer_vars (rdata : Word) (s : State) : (answer rdata s).vars = s.vars := rfl
@[simp] theorem answer_t (rdata : Word) (s : State) : (answer rdata s).t = s.t := rfl
@[simp] theorem answer_busy (rdata : Word) (s : State) : (answer rdata s).busy = s.busy := rfl
@[simp] theorem answer_errIllegal (rdata : Word) (s : State) :
    (answer rdata s).errIllegal = s.errIllegal := rfl
@[simp] theorem answer_errBusy (rdata : Word) (s : State) :
    (answer rdata s).errBusy = s.errBusy := rfl
@[simp] theorem answer_turns (rdata : Word) (s : State) : (answer rdata s).turns = s.turns := rfl
@[simp] theorem answer_reply (rdata : Word) (s : State) :
    (answer rdata s).reply = some ⟨.ok, rdata⟩ := rfl

/-! ### `rejectIllegal` -/

@[simp] theorem rejectIllegal_H (s : State) : (rejectIllegal s).H = s.H := rfl
@[simp] theorem rejectIllegal_M (s : State) : (rejectIllegal s).M = s.M := rfl
@[simp] theorem rejectIllegal_W (s : State) : (rejectIllegal s).W = s.W := rfl
@[simp] theorem rejectIllegal_vars (s : State) : (rejectIllegal s).vars = s.vars := rfl
@[simp] theorem rejectIllegal_t (s : State) : (rejectIllegal s).t = s.t := rfl
@[simp] theorem rejectIllegal_busy (s : State) : (rejectIllegal s).busy = s.busy := rfl
@[simp] theorem rejectIllegal_errIllegal (s : State) : (rejectIllegal s).errIllegal = true := rfl
@[simp] theorem rejectIllegal_errBusy (s : State) : (rejectIllegal s).errBusy = s.errBusy := rfl
@[simp] theorem rejectIllegal_turns (s : State) : (rejectIllegal s).turns = s.turns := rfl
@[simp] theorem rejectIllegal_reply (s : State) :
    (rejectIllegal s).reply = some ⟨.illegal, 0⟩ := rfl

/-! ### `rejectBusy` -/

@[simp] theorem rejectBusy_H (s : State) : (rejectBusy s).H = s.H := rfl
@[simp] theorem rejectBusy_M (s : State) : (rejectBusy s).M = s.M := rfl
@[simp] theorem rejectBusy_W (s : State) : (rejectBusy s).W = s.W := rfl
@[simp] theorem rejectBusy_vars (s : State) : (rejectBusy s).vars = s.vars := rfl
@[simp] theorem rejectBusy_t (s : State) : (rejectBusy s).t = s.t := rfl
@[simp] theorem rejectBusy_busy (s : State) : (rejectBusy s).busy = s.busy := rfl
@[simp] theorem rejectBusy_errIllegal (s : State) : (rejectBusy s).errIllegal = s.errIllegal := rfl
@[simp] theorem rejectBusy_errBusy (s : State) : (rejectBusy s).errBusy = true := rfl
@[simp] theorem rejectBusy_turns (s : State) : (rejectBusy s).turns = s.turns := rfl
@[simp] theorem rejectBusy_reply (s : State) : (rejectBusy s).reply = some ⟨.busy, 0⟩ := rfl

/-! ### `clearErrors` -/

@[simp] theorem clearErrors_H (s : State) : (clearErrors s).H = s.H := rfl
@[simp] theorem clearErrors_M (s : State) : (clearErrors s).M = s.M := rfl
@[simp] theorem clearErrors_W (s : State) : (clearErrors s).W = s.W := rfl
@[simp] theorem clearErrors_vars (s : State) : (clearErrors s).vars = s.vars := rfl
@[simp] theorem clearErrors_t (s : State) : (clearErrors s).t = s.t := rfl
@[simp] theorem clearErrors_busy (s : State) : (clearErrors s).busy = s.busy := rfl
@[simp] theorem clearErrors_errIllegal (s : State) : (clearErrors s).errIllegal = false := rfl
@[simp] theorem clearErrors_errBusy (s : State) : (clearErrors s).errBusy = false := rfl
@[simp] theorem clearErrors_turns (s : State) : (clearErrors s).turns = s.turns := rfl
@[simp] theorem clearErrors_reply (s : State) : (clearErrors s).reply = s.reply := rfl

/-! ### `setM` -/

@[simp] theorem setM_H (idx : Fin 16) (value : Word) (s : State) : (setM idx value s).H = s.H := rfl
@[simp] theorem setM_M (idx : Fin 16) (value : Word) (s : State) :
    (setM idx value s).M = s.M.set idx.val value := rfl
@[simp] theorem setM_W (idx : Fin 16) (value : Word) (s : State) : (setM idx value s).W = s.W := rfl
@[simp] theorem setM_vars (idx : Fin 16) (value : Word) (s : State) :
    (setM idx value s).vars = s.vars := rfl
@[simp] theorem setM_t (idx : Fin 16) (value : Word) (s : State) : (setM idx value s).t = s.t := rfl
@[simp] theorem setM_busy (idx : Fin 16) (value : Word) (s : State) :
    (setM idx value s).busy = s.busy := rfl
@[simp] theorem setM_errIllegal (idx : Fin 16) (value : Word) (s : State) :
    (setM idx value s).errIllegal = s.errIllegal := rfl
@[simp] theorem setM_errBusy (idx : Fin 16) (value : Word) (s : State) :
    (setM idx value s).errBusy = s.errBusy := rfl
@[simp] theorem setM_turns (idx : Fin 16) (value : Word) (s : State) :
    (setM idx value s).turns = s.turns := rfl
@[simp] theorem setM_reply (idx : Fin 16) (value : Word) (s : State) :
    (setM idx value s).reply = s.reply := rfl

/-! ### `accumulateStep` -/

@[simp] theorem accumulateStep_H (s : State) : (accumulateStep s).H = acc s.H s.vars := rfl
@[simp] theorem accumulateStep_M (s : State) : (accumulateStep s).M = s.M := rfl
@[simp] theorem accumulateStep_W (s : State) : (accumulateStep s).W = s.W := rfl
@[simp] theorem accumulateStep_vars (s : State) : (accumulateStep s).vars = s.vars := rfl
@[simp] theorem accumulateStep_t (s : State) : (accumulateStep s).t = s.t := rfl
@[simp] theorem accumulateStep_busy (s : State) : (accumulateStep s).busy = false := rfl
@[simp] theorem accumulateStep_errIllegal (s : State) :
    (accumulateStep s).errIllegal = s.errIllegal := rfl
@[simp] theorem accumulateStep_errBusy (s : State) : (accumulateStep s).errBusy = s.errBusy := rfl
@[simp] theorem accumulateStep_turns (s : State) : (accumulateStep s).turns = s.turns := rfl
@[simp] theorem accumulateStep_reply (s : State) : (accumulateStep s).reply = s.reply := rfl

/-! ### `roundStep` -/

@[simp] theorem roundStep_H (s : State) (ht : s.t.val < 64) : (roundStep s ht).H = s.H := rfl
@[simp] theorem roundStep_M (s : State) (ht : s.t.val < 64) : (roundStep s ht).M = s.M := rfl
@[simp] theorem roundStep_W (s : State) (ht : s.t.val < 64) :
    (roundStep s ht).W = expandAt s.W s.t.val := rfl
@[simp] theorem roundStep_vars (s : State) (ht : s.t.val < 64) :
    (roundStep s ht).vars = roundAt (expandAt s.W s.t.val) s.vars s.t.val := rfl
@[simp] theorem roundStep_t (s : State) (ht : s.t.val < 64) :
    (roundStep s ht).t = ⟨s.t.val + 1, by omega⟩ := rfl
@[simp] theorem roundStep_busy (s : State) (ht : s.t.val < 64) :
    (roundStep s ht).busy = s.busy := rfl
@[simp] theorem roundStep_errIllegal (s : State) (ht : s.t.val < 64) :
    (roundStep s ht).errIllegal = s.errIllegal := rfl
@[simp] theorem roundStep_errBusy (s : State) (ht : s.t.val < 64) :
    (roundStep s ht).errBusy = s.errBusy := rfl
@[simp] theorem roundStep_turns (s : State) (ht : s.t.val < 64) :
    (roundStep s ht).turns = s.turns := rfl
@[simp] theorem roundStep_reply (s : State) (ht : s.t.val < 64) :
    (roundStep s ht).reply = s.reply := rfl

/-! ### `takeReset` -/

@[simp] theorem takeReset_H (s : State) : (takeReset s).H = State.reset.H := rfl
@[simp] theorem takeReset_M (s : State) : (takeReset s).M = State.reset.M := rfl
@[simp] theorem takeReset_W (s : State) : (takeReset s).W = State.reset.W := rfl
@[simp] theorem takeReset_vars (s : State) : (takeReset s).vars = State.reset.vars := rfl
@[simp] theorem takeReset_t (s : State) : (takeReset s).t = State.reset.t := rfl
@[simp] theorem takeReset_busy (s : State) : (takeReset s).busy = State.reset.busy := rfl
@[simp] theorem takeReset_errIllegal (s : State) :
    (takeReset s).errIllegal = State.reset.errIllegal := rfl
@[simp] theorem takeReset_errBusy (s : State) : (takeReset s).errBusy = State.reset.errBusy := rfl
@[simp] theorem takeReset_turns (s : State) : (takeReset s).turns = s.turns := rfl
@[simp] theorem takeReset_reply (s : State) : (takeReset s).reply = State.reset.reply := rfl

/-! ### `pushTurn` -/

@[simp] theorem pushTurn_H (turn : Turn) (s : State) : (pushTurn turn s).H = s.H := rfl
@[simp] theorem pushTurn_M (turn : Turn) (s : State) : (pushTurn turn s).M = s.M := rfl
@[simp] theorem pushTurn_W (turn : Turn) (s : State) : (pushTurn turn s).W = s.W := rfl
@[simp] theorem pushTurn_vars (turn : Turn) (s : State) : (pushTurn turn s).vars = s.vars := rfl
@[simp] theorem pushTurn_t (turn : Turn) (s : State) : (pushTurn turn s).t = s.t := rfl
@[simp] theorem pushTurn_busy (turn : Turn) (s : State) : (pushTurn turn s).busy = s.busy := rfl
@[simp] theorem pushTurn_errIllegal (turn : Turn) (s : State) :
    (pushTurn turn s).errIllegal = s.errIllegal := rfl
@[simp] theorem pushTurn_errBusy (turn : Turn) (s : State) :
    (pushTurn turn s).errBusy = s.errBusy := rfl
@[simp] theorem pushTurn_turns (turn : Turn) (s : State) :
    (pushTurn turn s).turns = turn :: s.turns := rfl
@[simp] theorem pushTurn_reply (turn : Turn) (s : State) : (pushTurn turn s).reply = s.reply := rfl
end Sys2Proof.Machine
end

