-- ==== Sys2Proof/Laws/Ops.lean ====
section
/-! SUPPORT. What each shared operation can do, said once: later proofs cite these lemmas. -/

namespace Sys2Proof.Machine

/-! ### `unlessBusy` -/

theorem unlessBusy_idle (s p : State) (h : s.busy = false) : unlessBusy s p = .next p := by
  simp [unlessBusy, h]

theorem unlessBusy_busy (s p : State) (h : s.busy = true) : unlessBusy s p = .next (rejectBusy s) := by
  simp [unlessBusy, h]

/-- All `unlessBusy` can do. -/
theorem unlessBusy_cases {s p t : State} (h : unlessBusy s p = .next t) :
    (s.busy = true ∧ t = rejectBusy s) ∨ (s.busy = false ∧ t = p) := by
  unfold unlessBusy at h
  split at h
  · exact .inl ⟨‹_›, by injection h with h; exact h.symm⟩
  · exact .inr ⟨by simp_all, by injection h with h; exact h.symm⟩

/-! ### The engine's step -/

theorem engineStep_idle (s : State) (h : s.busy = false) : engineStep s = s := by
  simp [engineStep, h]

theorem engineStep_round (s : State) (h : s.busy = true) (ht : s.t.val < 64) :
    engineStep s = roundStep s ht := by
  simp [engineStep, h, ht]

theorem engineStep_accumulate (s : State) (h : s.busy = true) (ht : ¬ s.t.val < 64) :
    engineStep s = accumulateStep s := by
  simp [engineStep, h, ht]

/-- All the engine can do. -/
theorem engineStep_cases (s : State) :
    (s.busy = false ∧ engineStep s = s) ∨
      (∃ ht : s.t.val < 64, s.busy = true ∧ engineStep s = roundStep s ht) ∨
        (s.busy = true ∧ s.t = 64 ∧ engineStep s = accumulateStep s) := by
  cases hb : s.busy
  · exact .inl ⟨rfl, engineStep_idle s hb⟩
  · by_cases ht : s.t.val < 64
    · exact .inr (.inl ⟨ht, rfl, engineStep_round s hb ht⟩)
    · refine .inr (.inr ⟨rfl, ?_, engineStep_accumulate s hb ht⟩)
      apply Fin.ext
      have := s.t.isLt
      simp; omega

/-- An engine step leaves M, the sticky bits, the listed turns and the port's outputs (R86, R87). -/
theorem engineStep_frame (s : State) :
    (engineStep s).M = s.M ∧ (engineStep s).errIllegal = s.errIllegal ∧
      (engineStep s).errBusy = s.errBusy ∧ (engineStep s).turns = s.turns ∧
        (engineStep s).reply = s.reply := by
  obtain ⟨-, h⟩ | ⟨ht, -, h⟩ | ⟨-, -, h⟩ := engineStep_cases s <;> simp [h]

/-! ### Steps and turns -/

theorem step_of_turns (s : State) (turn : Turn) (rest : List Turn) (h : s.turns = turn :: rest) :
    step s = takeTurn turn { s with turns := rest } := by
  simp [step, takeNextTurn, popTurn, h]

theorem step_of_no_turns (s : State) (h : s.turns = []) : step s = .next (engineStep s) := by
  cases hb : s.busy <;> simp [step, takeNextTurn, popTurn, takeTurn, h, hb, engineStep]

theorem takeTurn_host_legal (cmd wdata : Word) (i : Instr) (s : State) (h : decode cmd wdata = some i) :
    takeTurn (.host cmd wdata) s = exec i s := by
  simp [takeTurn, transact, h]

theorem takeTurn_host_illegal (cmd wdata : Word) (s : State) (h : decode cmd wdata = none) :
    takeTurn (.host cmd wdata) s = .next (rejectIllegal s) := by
  simp [takeTurn, transact, h]

/-- What a performed command makes of the state, the BUSY check aside. -/
def performed : Instr → State → State
  | .nop, s => answer 0 s
  | .init, s => answer 0 { s with H := Config.IVTABLE }
  | .writeM idx value, s => answer 0 (setM idx value s)
  | .readM idx, s => answer (getM idx s) s
  | .compress, s => answer 0 { s with W := loadBlock s.W s.M, vars := seed s.H, t := 0, busy := true }
  | .readH idx, s => answer (getH idx s) s
  | .readDig idx, s => answer ((digestByte idx s).setWidth 32) s
  | .readStatus, s => answer (statusWord s) s
  | .clearErr, s => answer 0 (clearErrors s)

/-- All a command can do, in one line: the BUSY rejection or its own effect. -/
theorem exec_eq (i : Instr) (s : State) :
    exec i s = .next (if s.busy && !acceptedWhileBusy i then rejectBusy s else performed i s) := by
  cases i <;> cases hb : s.busy <;>
    simp [exec, execNop, execInit, execWriteM, execReadM, execCompress, execReadH, execReadDig,
      execReadStatus, execClearErr, unlessBusy, acceptedWhileBusy, performed, hb]

theorem exec_idle (i : Instr) (s : State) (h : s.busy = false) : exec i s = .next (performed i s) := by
  simp [exec_eq, h]

theorem exec_busy (i : Instr) (s : State) (h : s.busy = true) (ha : acceptedWhileBusy i = false) :
    exec i s = .next (rejectBusy s) := by
  simp [exec_eq, h, ha]

/-- Every turn has a next state: the core never traps (R101). -/
theorem takeTurn_next (turn : Turn) (s : State) : ∃ t, takeTurn turn s = .next t := by
  cases turn with
  | host cmd wdata =>
    cases h : decode cmd wdata with
    | none => exact ⟨_, takeTurn_host_illegal cmd wdata s h⟩
    | some i => exact ⟨_, (takeTurn_host_legal cmd wdata i s h).trans (exec_eq i s)⟩
  | engine => exact ⟨_, rfl⟩
  | reset => exact ⟨_, rfl⟩

/-- All one turn can do. -/
theorem takeTurn_cases {turn : Turn} {s t : State} (h : takeTurn turn s = .next t) :
    (∃ cmd wdata, turn = .host cmd wdata ∧ decode cmd wdata = none ∧ t = rejectIllegal s) ∨
      (∃ cmd wdata i, turn = .host cmd wdata ∧ decode cmd wdata = some i ∧ s.busy = true ∧
        acceptedWhileBusy i = false ∧ t = rejectBusy s) ∨
      (∃ cmd wdata i, turn = .host cmd wdata ∧ decode cmd wdata = some i ∧
        (s.busy = true → acceptedWhileBusy i = true) ∧ t = performed i s) ∨
      (turn = .engine ∧ t = engineStep s) ∨ (turn = .reset ∧ t = takeReset s) := by
  cases turn with
  | host cmd wdata =>
    cases hd : decode cmd wdata with
    | none =>
      rw [takeTurn_host_illegal cmd wdata s hd] at h
      injection h with h
      exact .inl ⟨cmd, wdata, rfl, hd, h.symm⟩
    | some i =>
      rw [takeTurn_host_legal cmd wdata i s hd, exec_eq] at h
      injection h with h
      cases hb : s.busy <;> cases ha : acceptedWhileBusy i <;> simp [hb, ha] at h
      · exact .inr (.inr (.inl ⟨cmd, wdata, i, rfl, hd, by simp, h.symm⟩))
      · exact .inr (.inr (.inl ⟨cmd, wdata, i, rfl, hd, by simp, h.symm⟩))
      · exact .inr (.inl ⟨cmd, wdata, i, rfl, hd, rfl, ha, h.symm⟩)
      · exact .inr (.inr (.inl ⟨cmd, wdata, i, rfl, hd, by simp [ha], h.symm⟩))
  | engine =>
    injection h with h
    exact .inr (.inr (.inr (.inl ⟨rfl, h.symm⟩)))
  | reset =>
    injection h with h
    exact .inr (.inr (.inr (.inr ⟨rfl, h.symm⟩)))

/-- A turn reads and leaves the list of turns as it stands, a reset included. -/
theorem takeTurn_turns {turn : Turn} {s t : State} (h : takeTurn turn s = .next t) :
    t.turns = s.turns := by
  obtain ⟨_, _, -, -, rfl⟩ | ⟨_, _, _, -, -, -, -, rfl⟩ | ⟨_, _, i, -, -, -, rfl⟩ | ⟨-, rfl⟩ | ⟨-, rfl⟩ :=
    takeTurn_cases h
  · rfl
  · rfl
  · cases i <;> rfl
  · exact (engineStep_frame s).2.2.2.1
  · rfl

/-! ### Runs -/

theorem runSteps_zero (s : State) : runSteps 0 s = .next s := rfl

theorem runSteps_succ {s t : State} (k : Nat) (h : step s = .next t) :
    runSteps (k + 1) s = runSteps k t := by
  have e : Sys2Proof.core.step s = .next t := h
  simp only [runSteps, Host.Core.run, e]
  rfl

/-- Every step has a next state. -/
theorem step_next (s : State) : ∃ t, step s = .next t := by
  cases h : s.turns with
  | nil => exact ⟨_, step_of_no_turns s h⟩
  | cons turn rest => rw [step_of_turns s turn rest h]; exact takeTurn_next turn _

/-- Every run has a last state. -/
theorem runSteps_next (k : Nat) (s : State) : ∃ t, runSteps k s = .next t := by
  induction k generalizing s with
  | zero => exact ⟨s, rfl⟩
  | succ k ih =>
    obtain ⟨t, ht⟩ := step_next s
    rw [runSteps_succ k ht]
    exact ih t

/-- A run of `m + n` steps is a run of `m` and then of `n`. -/
theorem runSteps_add {s t : State} (m n : Nat) (h : runSteps m s = .next t) :
    runSteps (m + n) s = runSteps n t := by
  induction m generalizing s with
  | zero =>
    rw [runSteps_zero] at h
    injection h with h
    rw [h, Nat.zero_add]
  | succ m ih =>
    obtain ⟨u, hu⟩ := step_next s
    rw [runSteps_succ m hu] at h
    rw [Nat.succ_add, runSteps_succ (m + n) hu]
    exact ih h

end Sys2Proof.Machine
end

