-- ==== Sys2Proof/Laws/Driver.lean ====
section
/-! SUPPORT. What the operations of the host agent can do, said once, and two facts of words that it reads and
builds. -/

namespace Sys2Proof.Machine

/-! ### Words -/

/-- `BE32` as a number (R9). -/
theorem be32_toNat (a b c d : Byte) :
    (be32 a b c d).toNat = a.toNat * 2 ^ 24 + b.toNat * 2 ^ 16 + c.toNat * 2 ^ 8 + d.toNat := by
  have ha := a.isLt
  have hb := b.isLt
  have hc := c.isLt
  have hd := d.isLt
  unfold be32
  simp only [BitVec.toNat_or, BitVec.toNat_shiftLeft, BitVec.toNat_setWidth, Nat.shiftLeft_eq]
  rw [show a.toNat % 2 ^ 32 * 2 ^ 24 % 2 ^ 32 = 2 ^ 24 * a.toNat by omega,
    show b.toNat % 2 ^ 32 * 2 ^ 16 % 2 ^ 32 = 2 ^ 16 * b.toNat by omega,
    show c.toNat % 2 ^ 32 * 2 ^ 8 % 2 ^ 32 = 2 ^ 8 * c.toNat by omega,
    show d.toNat % 2 ^ 32 = d.toNat by omega,
    ← Nat.two_pow_add_eq_or_of_lt (by omega : 2 ^ 16 * b.toNat < 2 ^ 24),
    show 2 ^ 24 * a.toNat + 2 ^ 16 * b.toNat = 2 ^ 16 * (2 ^ 8 * a.toNat + b.toNat) by omega,
    ← Nat.two_pow_add_eq_or_of_lt (by omega : 2 ^ 8 * c.toNat < 2 ^ 16),
    show 2 ^ 16 * (2 ^ 8 * a.toNat + b.toNat) + 2 ^ 8 * c.toNat =
      2 ^ 8 * (2 ^ 16 * a.toNat + 2 ^ 8 * b.toNat + c.toNat) by omega,
    ← Nat.two_pow_add_eq_or_of_lt (by omega : d.toNat < 2 ^ 8)]
  omega

/-- STATUS[0:0] is BUSY (R17), which WAIT polls (R54). -/
theorem statusWord_bit_zero (s : State) : (statusWord s).getLsbD 0 = s.busy := by
  unfold statusWord
  cases s.errBusy <;> cases s.errIllegal <;> cases s.busy <;> rfl

/-! ### Steps of host and core -/

/-- Every host transaction is answered (R43). -/
theorem host_turn_replies {cmd wdata : Word} {s t : State} (h : takeTurn (.host cmd wdata) s = .next t) :
    ∃ r, t.reply = some r := by
  obtain ⟨_, _, -, -, rfl⟩ | ⟨_, _, _, -, -, -, -, rfl⟩ | ⟨_, _, i, -, -, -, rfl⟩ | ⟨h, -⟩ | ⟨h, -⟩ :=
    takeTurn_cases h
  · exact ⟨_, rfl⟩
  · exact ⟨_, rfl⟩
  · cases i <;> exact ⟨_, rfl⟩
  · cases h
  · cases h

/-- All a step of host and core can do. -/
theorem systemStep_cases {who : Actor} {y z : System} (h : systemStep who y = .next z) :
    (actorTurn who y.agent = none ∧ z = y) ∨
      ∃ turn core, actorTurn who y.agent = some turn ∧ takeTurn turn y.core = .next core ∧
        z = afterTurn who y.agent core := by
  unfold systemStep at h
  cases ht : actorTurn who y.agent with
  | none =>
    rw [ht] at h
    injection h with h
    exact .inl ⟨rfl, h.symm⟩
  | some turn =>
    obtain ⟨core, hc⟩ := takeTurn_next turn y.core
    rw [ht] at h
    simp only [hc] at h
    injection h with h
    exact .inr ⟨turn, core, rfl, hc, h.symm⟩

/-- Every step of host and core has a next system: the host is not stopped and the core never traps (R101). -/
theorem systemStep_next (who : Actor) (y : System) : ∃ z, systemStep who y = .next z := by
  unfold systemStep
  split
  · exact ⟨_, rfl⟩
  · obtain ⟨t, ht⟩ := takeTurn_next ‹Turn› y.core
    rw [ht]
    exact ⟨_, rfl⟩

theorem systemRun_cons (who : Actor) (rest : List Actor) {y z : System} (h : systemStep who y = .next z) :
    systemRun (who :: rest) y = systemRun rest z := by
  rw [systemRun, h]

end Sys2Proof.Machine
end

