-- ==== Sys2Proof/Laws/Invariant.lean ====
section
/-! SUPPORT. The invariant of a running compression, piece by piece: it does not see the listed turns, an accepted
COMPRESS starts it, a round step keeps it, and at t = 64 it gives the result. -/

namespace Sys2Proof.Machine

theorem engineInv_turns {s : State} (l : List Turn) (h : EngineInv s) : EngineInv { s with turns := l } :=
  fun hb => h hb

theorem engineInv_idle {s : State} (h : s.busy = false) : EngineInv s := by
  intro hb
  simp [h] at hb

theorem engineInv_accepted (s : State) : EngineInv (performed .compress s) := by
  unfold EngineInv performed
  simp only [answer_busy, answer_W, answer_M, answer_H, answer_vars, answer_t]
  intro _
  constructor
  · intro i hi
    have hi' : i.val < 16 := by simpa using hi
    have e1 := loadBlock_get_low s.W s.M i.val hi'
    have e2 := schedule_get_low s.M i.val hi'
    exact e1.trans e2.symm
  · rw [show ((0 : Fin 65).val) = 0 from rfl, rounds_zero]

theorem engineInv_roundStep {s : State} (ht : s.t.val < 64) (hb : s.busy = true) (hi : EngineInv s) :
    EngineInv (roundStep s ht) := by
  intro _
  obtain ⟨hW, hv⟩ := hi hb
  have hW' := expandAt_extends_schedule s.W s.M s.t.val ht hW
  constructor
  · intro i hi
    simpa using hW' i (by simpa using hi)
  · simp only [roundStep_vars, roundStep_M, roundStep_H, roundStep_t]
    rw [rounds_succ, ← hv]
    exact roundAt_congr _ _ _ _ fun ht => hW' ⟨s.t.val, ht⟩ (by simp)

/-- With the invariant, the accumulate step at t = 64 leaves `Compress(H, M)` in H. -/
theorem accumulateStep_compress {s : State} (hb : s.busy = true) (ht : s.t = 64) (hi : EngineInv s) :
    acc s.H s.vars = compress s.H s.M := by
  obtain ⟨-, hv⟩ := hi hb
  rw [compress, hv, ht]
  rfl

end Sys2Proof.Machine
end

