-- ==== Sys2Proof/Laws/PerInstr.lean ====
section
/-! SUPPORT. A law of every command as syntax, one lemma per constructor: the command word that the encoder writes
selects the row of the opcode map (R47) that bears the command's mnemonic. -/

namespace Sys2Proof.Laws.OwnRow

/-- The encoded word of `i` selects its own row. -/
abbrev Statement (i : Instr) : Prop :=
  (rowOf (encode i).1).map (·.mnemonic) = some i.mnemonic

theorem nop : Statement .nop := rfl

theorem init : Statement .init := rfl

theorem writeM (idx : Fin 16) (value : Word) : Statement (.writeM idx value) := by
  have h : ∀ idx : Fin 16, (rowOf (0x02000000 ||| BitVec.ofNat 32 idx.val)).map (·.mnemonic) = some .writeM := by
    decide
  exact h idx

theorem readM (idx : Fin 16) : Statement (.readM idx) := by
  revert idx
  decide

theorem compress : Statement .compress := rfl

theorem readH (idx : Fin 8) : Statement (.readH idx) := by
  revert idx
  decide

theorem readDig (idx : Fin 32) : Statement (.readDig idx) := by
  unfold Statement encode Instr.mnemonic
  revert idx
  decide

theorem readStatus : Statement .readStatus := rfl

theorem clearErr : Statement .clearErr := rfl

end Sys2Proof.Laws.OwnRow
end

