-- ==== Sys2Proof/Tests/Slice0.lean ====
section
/-! SUPPORT. Tests whose expected results are written in spec/95_test_vectors.md or in the rule named, and for every
statement with hypotheses a witness that meets them. -/

namespace Sys2Proof.Machine.Tests

/-! ### Helpers -/

/-- The state after, if there is one. -/
def after (o : Host.Outcome State Fault Refusal) : Option State :=
  match o with
  | .next s => some s
  | .fault _ => none
  | .refused _ => none

/-- What the port answered. -/
def answered (o : Host.Outcome State Fault Refusal) : Option Reply := (after o).bind (·.reply)

/-- An idle core with H = (1 .. 8) and a block of its own. -/
def idle : State :=
  { State.reset with H := #v[1, 2, 3, 4, 5, 6, 7, 8], M := Vector.ofFn fun j => BitVec.ofNat 32 (100 + j.val) }

/-- A busy core at round counter `t`. -/
def busyAt (t : Fin 65) : State := { idle with busy := true, t := t }

/-- A busy core with both error bits set. -/
def busyWithErrors : State := { busyAt 5 with errIllegal := true, errBusy := true }

/-- The core after COMPRESS from reset. -/
def running : State := performed .compress State.reset

/-- The block of "abc" (§2.3). -/
def abcBlock : Vector Word 16 := #v[0x61626380, 0, 0, 0, 0, 0, 0, 0, 0, 0, 0, 0, 0, 0, 0, 0x18]

/-- The message "abc". -/
def abc : List Byte := [0x61, 0x62, 0x63]

/-! ### WellFormed refuses (R53) -/

theorem test_wf_writeM_idx : Line.wellFormed (.writeM 16 0) = false ∧ Line.wellFormed (.writeM 15 0) = true := by decide
theorem test_wf_writeM_value :
    Line.wellFormed (.writeM 0 (2 ^ 32)) = false ∧ Line.wellFormed (.writeM 0 (2 ^ 32 - 1)) = true := by decide
theorem test_wf_readM : Line.wellFormed (.readM 16) = false ∧ Line.wellFormed (.readM 15) = true := by decide
theorem test_wf_readH : Line.wellFormed (.readH 8) = false ∧ Line.wellFormed (.readH 7) = true := by decide
theorem test_wf_readDig : Line.wellFormed (.readDig 32) = false ∧ Line.wellFormed (.readDig 31) = true := by decide
theorem test_wf_word_cmd : Line.wellFormed (.word (2 ^ 32) 0) = false := by decide
theorem test_wf_word_wdata : Line.wellFormed (.word 0 (2 ^ 32)) = false := by decide
theorem test_wf_stmt : Stmt.wellFormed (.line (.readH 8)) = false := by decide

/-! ### Decoding (§2.6), and the table's numbering (R52) -/

theorem test_decode_nop : decode 0b00000000_0000000000000000_00000000 7 = some .nop := by decide
theorem test_decode_init : decode 0b00000001_0000000000000000_00000000 7 = some .init := by decide
theorem test_decode_writeM : decode 0b00000010_0000000000000000_0000_1101 7 = some (.writeM 13 7) := by decide
theorem test_decode_readM : decode 0b00000011_0000000000000000_0000_0101 7 = some (.readM 5) := by decide
theorem test_decode_compress : decode 0b00000100_0000000000000000_00000000 7 = some .compress := by decide
theorem test_decode_readH : decode 0b00000101_0000000000000000_00000_110 7 = some (.readH 6) := by decide
theorem test_decode_readDig : decode 0b00000110_0000000000000000_000_10111 7 = some (.readDig 23) := by decide
theorem test_decode_readStatus : decode 0b00000111_0000000000000000_00000000 7 = some .readStatus := by decide
theorem test_decode_clearErr : decode 0b00001000_0000000000000000_00000000 7 = some .clearErr := by decide
theorem test_table_word_short : decodeTableWord 32 0x02000003 = some (.writeM 3 0) := by decide
theorem test_table_word_long : decodeTableWord 64 0x000000ff02000003 = some (.writeM 3 0xff) := by decide
theorem test_encode_writeM : encode (.writeM 15 0x18) = (0x0200000f, 0x18) := by decide
theorem test_encode_readDig : encode (.readDig 31) = (0x0600001f, 0) := by decide

/-! ### Datapath (§2.1, §2.2) -/

/-- Both ends of the first row, the start of the next, and the last word (R69). -/
theorem test_constants :
    Config.KTABLE[0] = 0x428a2f98 ∧ Config.KTABLE[7] = 0xab1c5ed5 ∧ Config.KTABLE[8] = 0xd807aa98 ∧
      Config.KTABLE[63] = 0xc67178f2 := by decide +kernel
theorem test_add32 :
    add32 0xffffffff 1 = 0 ∧ add32 0x80000000 0x80000000 = 0 ∧
      add32 (add32 (add32 (add32 0xffffffff 0xffffffff) 0xffffffff) 0xffffffff) 0xffffffff = 0xfffffffb := by decide
theorem test_rotr : rotr 0x12345678 1 = 0x091a2b3c ∧ rotr 0x61626380 31 = 0xc2c4c700 := by decide
theorem test_smallSigma0 : smallSigma0 0x12345678 = 0xe7fce6ee ∧ smallSigma0 0x61626380 = 0x940e90ef := by decide
theorem test_smallSigma1 : smallSigma1 0x12345678 = 0xa1f78649 ∧ smallSigma1 0x61626380 = 0x7da86405 := by decide
theorem test_bigSigma0 : bigSigma0 0x12345678 = 0x66146474 ∧ bigSigma0 0x61626380 = 0x8dd59276 := by decide
theorem test_bigSigma1 : bigSigma1 0x12345678 = 0x3561abda ∧ bigSigma1 0x61626380 = 0xc0b865f2 := by decide
theorem test_ch : ch 0xf0f0f0f0 0xff00ff00 0x0f0f0f0f = 0xff0fff0f := by decide
theorem test_maj : maj 0xf0f0f0f0 0xff00ff00 0x0f0f0f0f = 0xff00ff00 := by decide
theorem test_serialize :
    serialize #v[0x01234567, 0x89abcdef, 0, 0xffffffff, 0x80000000, 1, 0x00ff00ff, 0xdeadbeef] =
      [0x01, 0x23, 0x45, 0x67, 0x89, 0xab, 0xcd, 0xef, 0, 0, 0, 0, 0xff, 0xff, 0xff, 0xff,
       0x80, 0, 0, 0, 0, 0, 0, 0x01, 0, 0xff, 0, 0xff, 0xde, 0xad, 0xbe, 0xef] := by decide

/-- Round 0 of "abc" (R65). -/
theorem test_round_abc :
    roundVars (seed Config.IVTABLE) 0x428a2f98 0x61626380 =
      ⟨0x5d6aebcd, 0x6a09e667, 0xbb67ae85, 0x3c6ef372, 0xfa2a4622, 0x510e527f, 0x9b05688c, 0x1f83d9ab⟩ := by decide

/-- The block of "abc" from IV (§2.5): every schedule word and every constant is used. -/
theorem test_compress_abc :
    compress Config.IVTABLE abcBlock =
      #v[0xba7816bf, 0x8f01cfea, 0x414140de, 0x5dae2223, 0xb00361a3, 0x96177a9c, 0xb410ff61, 0xf20015ad] := by
  decide +kernel

/-! ### One step of each command (§2.7) -/

theorem test_nop : after (step (State.reset.withFetchWord 32 0x00000000)) =
    some { State.reset with reply := some ⟨.ok, 0⟩ } := by decide
theorem test_nop_busy : after (exec .nop (busyAt 5)) = some { busyAt 5 with reply := some ⟨.ok, 0⟩ } := by decide
theorem test_init : (after (exec .init idle)).map (·.H) =
    some #v[0x6a09e667, 0xbb67ae85, 0x3c6ef372, 0xa54ff53a, 0x510e527f, 0x9b05688c, 0x1f83d9ab, 0x5be0cd19] := by decide
theorem test_init_busy : after (exec .init (busyAt 5)) =
    some { busyAt 5 with errBusy := true, reply := some ⟨.busy, 0⟩ } := by decide
theorem test_writeM : (after (step (State.reset.withFetchWord 64 0x000000180200000f))).map (·.M) =
    some #v[0, 0, 0, 0, 0, 0, 0, 0, 0, 0, 0, 0, 0, 0, 0, 0x18] := by decide
theorem test_writeM_busy : after (exec (.writeM 0 0x12345678) (busyAt 5)) =
    some { busyAt 5 with errBusy := true, reply := some ⟨.busy, 0⟩ } := by decide
theorem test_readM : answered (exec (.readM 9) State.reset) = some ⟨.ok, 0⟩ ∧
    answered (exec (.readM 9) idle) = some ⟨.ok, 109⟩ := by decide
theorem test_compress : (after (exec .compress { State.reset with M := abcBlock })).map
    (fun s => ([s.W[0], s.W[15], s.W[16], s.vars.a, s.vars.h], s.busy)) =
      some ([0x61626380, 0x18, 0, 0x6a09e667, 0x5be0cd19], true) := by decide
theorem test_compress_busy : after (exec .compress (busyAt 5)) =
    some { busyAt 5 with errBusy := true, reply := some ⟨.busy, 0⟩ } := by decide
theorem test_readH : answered (exec (.readH 3) State.reset) = some ⟨.ok, 0xa54ff53a⟩ := by decide
theorem test_readH_busy : answered (exec (.readH 0) (busyAt 64)) = some ⟨.busy, 0⟩ := by decide
theorem test_readDig : answered (exec (.readDig 0) State.reset) = some ⟨.ok, 0x6a⟩ ∧
    answered (exec (.readDig 31) State.reset) = some ⟨.ok, 0x19⟩ := by decide
theorem test_readStatus : answered (exec .readStatus State.reset) = some ⟨.ok, 0⟩ ∧
    answered (exec .readStatus (busyAt 5)) = some ⟨.ok, 1⟩ := by decide
theorem test_readStatus_all : answered (exec .readStatus busyWithErrors) = some ⟨.ok, 7⟩ := by decide
theorem test_clearErr : after (exec .clearErr busyWithErrors) =
    some { busyAt 5 with reply := some ⟨.ok, 0⟩ } := by decide

/-! ### Rejected words, engine, reset (§2.5, §2.7) -/

theorem test_illegal_wins : after (transact 0x02000010 0 (busyAt 5)) =
    some { busyAt 5 with errIllegal := true, reply := some ⟨.illegal, 0⟩ } := by decide
theorem test_illegal_idle : after (transact 0x09000000 0xffffffff idle) =
    some { idle with errIllegal := true, reply := some ⟨.illegal, 0⟩ } := by decide
theorem test_engine_expands : (engineStep { busyAt 16 with W := Vector.ofFn fun i =>
    if i.val = 0 then 0x61626380 else if i.val = 15 then 0x18 else 0 }).W[16] = 0x61626380 := by decide
theorem test_engine_accumulates : (engineStep { busyAt 64 with H := Config.IVTABLE, vars :=
    ⟨0x506e3058, 0xd39a2165, 0x04d24d6c, 0xb85e2ce9, 0x5ef50f24, 0xfb121210, 0x948d25b6, 0x961f4894⟩ }).H =
      #v[0xba7816bf, 0x8f01cfea, 0x414140de, 0x5dae2223, 0xb00361a3, 0x96177a9c, 0xb410ff61, 0xf20015ad] := by decide
theorem test_reset_busy : after (takeTurn .reset busyWithErrors) = some State.reset := by decide

/-! ### The host's duties (§3) and the assembler (R53) -/

theorem test_plan_boundary : paddedLength 55 = 64 ∧ paddedLength 56 = 128 ∧ paddedLength 119 = 128 := by decide
theorem test_plan_zero_bits : zeroBits 0 = 447 ∧ zeroBits 55 = 7 ∧ zeroBits 56 = 511 ∧ zeroBits 63 = 455 := by decide
theorem test_plan_limit : planSize (2 ^ 61) = .error .inputTooLarge ∧ paddedLength (2 ^ 61 - 1) = 2 ^ 61 + 64 :=
  ⟨rfl, by decide⟩
theorem test_blocks_abc : parseBlocks (padMessage abc) = [abcBlock] := by decide
theorem test_read_line :
    readLine ['w', 'r', 'i', 't', 'e', '_', 'm', ' ', '1', '5', ',', ' ', '0', 'x', '1', '8', ' ', ';'] =
      some [.line (.writeM 15 24)] := by decide
theorem test_read_line_word :
    readLine ['.', 'w', 'o', 'r', 'd', ' ', '0', 'x', '0', '2', '0', '0', '0', '0', '1', '0'] =
      some [.line (.word 0x02000010 0)] := by decide
theorem test_assemble_out_of_range :
    assembleLine (.readH 8) = none ∧ assembleLine (.word 0x05000008 0) = some (0x05000008, 0) := by decide

/-! ### Witnesses: encoding -/

theorem witness_EncodeOfDecodedWordIsTheWord :
    decode 0x0200000f 0x18 = some (.writeM 15 0x18) ∧ decode 0x03000005 0xff = some (.readM 5) := by decide
/-- An illegal word and a legal word on the two sides of each boundary that R49 names. -/
theorem witness_IllegalWordsAreTheListedOnes :
    (decode 0x09000000 0 = none ∧ decode 0x08000000 0 = some .clearErr) ∧
    (decode 0x00000100 0 = none ∧ decode 0x00800000 0 = none ∧ decode 0x00000000 0 = some .nop) ∧
    (decode 0x01000001 0 = none ∧ decode 0x04000001 0 = none ∧ decode 0x07000001 0 = none) ∧
    (decode 0x02000010 0 = none ∧ decode 0x0200000f 0 = some (.writeM 15 0)) ∧
    (decode 0x05000008 0 = none ∧ decode 0x05000007 0 = some (.readH 7)) ∧
    (decode 0x06000020 0 = none ∧ decode 0x0600001f 0 = some (.readDig 31)) := by decide
theorem witness_WordSelectsAtMostOneRow : ∃ r ∈ opcodeMap, r.selects 0x0600001f = true :=
  ⟨⟨.readDig, .i5, 0x06000000, 0xFFFFFFE0⟩, by decide, by decide⟩
/-- EncodedAlone and EncodedIndexed: a word with the command's opcode that is not the command. -/
theorem witness_EncodedAlone : opcField 0x01000100 = 0x01 ∧ (0x01000100 : Word) ≠ 0x01000000 ∧
    opcField 0x00000001 = 0x00 ∧ opcField 0x04800000 = 0x04 ∧ opcField 0x07000001 = 0x07 ∧
    opcField 0x08000001 = 0x08 := by decide
theorem witness_EncodedIndexed :
    (opcField 0x02000010 = 0x02 ∧ (0x02000010 : Word).extractLsb' 4 20 ≠ 0) ∧
    (opcField 0x03800000 = 0x03 ∧ (0x03800000 : Word).extractLsb' 4 20 ≠ 0) ∧
    (opcField 0x05000008 = 0x05 ∧ (0x05000008 : Word).extractLsb' 3 21 ≠ 0) ∧
    (opcField 0x06000020 = 0x06 ∧ (0x06000020 : Word).extractLsb' 5 19 ≠ 0) := by decide

/-! ### Witnesses: steps and responses -/

theorem witness_StepRunsTheDecodedCommand :
    ({ idle with turns := [.host 0x01000000 0, .engine] } : State).turns = .host 0x01000000 0 :: [.engine] ∧
      decode 0x01000000 0 = some .init := by decide
theorem witness_StepRunsThePlacedInstruction :
    decodeTableWord 64 0x123456780200000f = some (.writeM 15 0x12345678) := by decide
/-- One state for each of the five clauses. -/
theorem witness_StepTakesTheListedTurn :
    (({ idle with turns := [.host 0x09000000 0] } : State).turns = .host 0x09000000 0 :: [] ∧
      decode 0x09000000 0 = none) ∧
    ({ idle with turns := [.engine] } : State).turns = .engine :: [] ∧
    ({ idle with turns := [.reset] } : State).turns = .reset :: [] ∧
    ((busyAt 5).turns = [] ∧ (busyAt 5).busy = true) ∧ (idle.turns = [] ∧ idle.busy = false) := by decide
/-- Each of the three response codes is answered. -/
theorem witness_ResponsesMeanWhatTheTableSays :
    (answered (transact 0x01000000 0 idle)).map (·.resp.code) = some 0 ∧
    (answered (transact 0x09000000 0 idle)).map (·.resp.code) = some 1 ∧
    (answered (transact 0x01000000 0 (busyAt 5))).map (·.resp.code) = some 2 := by decide
/-- Each of the four reads accepted, a rejected read, an accepted write. -/
theorem witness_ReadDataOnlyFromAcceptedReads :
    (decode 0x0300000f 0 = some (.readM 15) ∧ answered (transact 0x0300000f 0 idle) = some ⟨.ok, 115⟩) ∧
    (decode 0x05000007 0 = some (.readH 7) ∧ answered (transact 0x05000007 0 idle) = some ⟨.ok, 8⟩) ∧
    (decode 0x0600001f 0 = some (.readDig 31) ∧ answered (transact 0x0600001f 0 idle) = some ⟨.ok, 8⟩) ∧
    (decode 0x07000000 0 = some .readStatus ∧ answered (transact 0x07000000 0 busyWithErrors) = some ⟨.ok, 7⟩) ∧
    answered (transact 0x05000007 0 (busyAt 0)) = some ⟨.busy, 0⟩ ∧
    (decode 0x02000000 9 = some (.writeM 0 9) ∧ Instr.mnemonic (.writeM 0 9) ≠ .readM ∧
      answered (transact 0x02000000 9 idle) = some ⟨.ok, 0⟩) := by decide
theorem witness_BusyRejectsTheSixCommands : (busyAt 0).busy = true ∧ (busyAt 64).busy = true := by decide

/-! ### Witnesses: commands -/

/-- The two cases of every command that BUSY rejects. -/
theorem witness_idle_and_busy : idle.busy = false ∧ (busyAt 5).busy = true := by decide
theorem witness_InitLoadsTheInitialHash : ∃ t, exec .init idle = .next t ∧ t.H ≠ idle.H :=
  ⟨_, rfl, by decide⟩
/-- CompressStartsTheEngine's schedule clauses: entry 15 and entry 16 of the state after. -/
theorem witness_CompressStartsTheEngine :
    idle.busy = false ∧ (loadBlock idle.W idle.M)[15] = 115 ∧ (loadBlock idle.W idle.M)[16] = 0 := by decide
theorem witness_ReadStatusReturnsTheThreeBits : ∃ t, takeTurn .engine (busyAt 5) = .next t ∧ t.busy = true :=
  ⟨_, rfl, by decide⟩
theorem witness_WriteMStoresOneWord : idle.busy = false ∧ ∃ t, exec (.writeM 15 7) idle = .next t :=
  ⟨by decide, _, rfl⟩
theorem witness_ReadMReturnsTheBlockWord :
    (∃ t, exec .compress idle = .next t) ∧ (∃ t, takeTurn .engine (busyAt 64) = .next t) := ⟨⟨_, rfl⟩, _, rfl⟩
theorem witness_ReadHReturnsTheHashWord : idle.busy = false ∧ ∃ s, exec .init idle = .next s :=
  ⟨by decide, _, rfl⟩
theorem witness_DigestViewsAgree : idle.busy = false := by decide
theorem witness_ReadMSeesTheEarlierWrite : idle.busy = false ∧ ∃ t, exec (.writeM 3 7) idle = .next t :=
  ⟨by decide, _, rfl⟩
theorem witness_CommandsButCompressAreIdempotent :
    (∃ t, exec .init idle = .next t) ∧ Instr.init ≠ .compress ∧
      (∃ t, exec (.readH 7) idle = .next t) ∧ Instr.mnemonic (.readH 7) = .readH ∧ idle.busy = false :=
  ⟨⟨_, rfl⟩, by decide, ⟨_, rfl⟩, by decide, by decide⟩

/-! ### Witnesses: engine -/

/-- Both halves of the round step's schedule rule at their boundary: t = 15, 16 and the last, 63. -/
theorem witness_EngineRoundStepIsTheRound :
    ((busyAt 15).busy = true ∧ (busyAt 15).t.val < 16) ∧ ((busyAt 16).busy = true ∧ 16 ≤ (busyAt 16).t.val) ∧
      ((busyAt 63).busy = true ∧ (busyAt 63).t.val < 64) := by decide
theorem witness_EngineAccumulatesIntoH : (busyAt 64).busy = true ∧ (busyAt 64).t = 64 := by decide
theorem witness_EngineMovesExactlyWhileBusy :
    (idle.busy = false ∧ takeTurn .engine idle = .next idle) ∧
      ∃ t, takeTurn .engine (busyAt 63) = .next t ∧ t.t.val = 64 := ⟨⟨by decide, rfl⟩, _, rfl, by decide⟩
/-- The bit functions at their boundary: rotation and shift by 1 and by 31, bits 0 and 31. -/
theorem witness_RotationIsOverThirtyTwoBits :
    (rotr 0x80000001 1).getLsbD 31 = true ∧ (rotr 0x80000001 31).getLsbD 0 = true := by decide
theorem witness_ShiftFillsWithZeros :
    (shr 0x80000000 1).getLsbD 30 = true ∧ (shr 0x80000000 1).getLsbD 31 = false ∧
      (shr 0x80000000 31).getLsbD 0 = true := by decide
theorem witness_ConstantsAreRootsOfPrimes :
    (primesBelow 312)[0]? = some 2 ∧ (primesBelow 312)[63]? = some 311 := by decide +kernel

/-! ### Witnesses: the whole machine -/

/-- Every element of R11 changed by a turn that is no reset, in each of the ways the statement allows. -/
theorem witness_WritersOfEveryElement :
    ((after (takeTurn (.host 0x01000000 0) idle)).map (decide <| ·.H ≠ idle.H) = some true) ∧
    ((after (takeTurn .engine { busyAt 64 with vars := ⟨1, 0, 0, 0, 0, 0, 0, 0⟩ })).map
      (fun t => decide (t.H ≠ idle.H) && !t.busy) = some true) ∧
    ((after (takeTurn (.host 0x0200000f 7) idle)).map (decide <| ·.M ≠ idle.M) = some true) ∧
    ((after (takeTurn (.host 0x04000000 0) idle)).map
      (fun t => decide (t.W ≠ idle.W) && decide (t.vars ≠ idle.vars) && t.busy) = some true) ∧
    ((after (takeTurn .engine (busyAt 63))).map (decide <| ·.t ≠ 63) = some true) ∧
    ((after (takeTurn (.host 0x09000000 0) idle)).map (·.errIllegal) = some true) ∧
    ((after (takeTurn (.host 0x01000000 0) (busyAt 5))).map (·.errBusy) = some true) ∧
    ((after (takeTurn (.host 0x08000000 0) busyWithErrors)).map (fun t => t.errIllegal || t.errBusy) =
      some false) := by decide
/-- A run of one NOP ends with no error. -/
theorem witness_NoErrorAtTheEndMeansAllOk :
    decode 0 0 ≠ some .clearErr ∧
      ∃ u, runSteps 1 { idle with turns := [.host 0 0] } = .next u ∧ noError u = true :=
  ⟨by decide, _, rfl, by decide⟩
theorem witness_IdleCoreHoldsItsState : idle.turns = [] ∧ idle.busy = false := by decide
theorem witness_EveryStepKeepsEngineInv :
    running.busy = true ∧ EngineInv running ∧ ∃ t, step running = .next t :=
  ⟨by simp [running, performed], engineInv_accepted _, step_next _⟩
theorem witness_EveryInterleavingCompresses :
    State.reset.busy = false ∧ (∃ c, exec .compress State.reset = .next c) ∧
    (∀ x ∈ (.host 0x07000000 0 :: List.replicate 64 .engine : List Turn), x.isReset = false) ∧
    (.host 0x07000000 0 :: List.replicate 64 .engine : List Turn).countP Turn.isEngine = 64 :=
  ⟨rfl, ⟨_, exec_eq _ _⟩, by decide, by decide⟩
theorem witness_EngineAloneFinishesTheBlock : EngineInv running ∧ running.busy = true ∧ running.turns = [] :=
  ⟨engineInv_accepted _, by simp [running, performed], by simp [running, performed, State.reset]⟩
/-- Idle states with different hidden state, and busy states with a different entry of an earlier block. -/
theorem witness_HiddenStateIsNeverObserved :
    (HostAgree idle { idle with W := Vector.replicate 64 1, t := 7 } ∧ ∃ s', step idle = .next s') ∧
    HostAgree (busyAt 5) { busyAt 5 with W := (busyAt 5).W.set 63 1 } :=
  ⟨⟨by unfold HostAgree; decide, step_next _⟩, by unfold HostAgree; decide⟩
/-- The execution in which the engine alone moves, from a running compression. -/
theorem witness_WaitEndsUnderWeakFairness :
    running.busy = true ∧ IsExecution (fun _ => .engine) (fun n => engineStep^[n] running) ∧
      WeaklyFair (fun _ => .engine) (fun n => engineStep^[n] running) := by
  refine ⟨by simp [running, performed], fun n => ?_, fun n _ => ⟨n, le_refl n, rfl⟩⟩
  simp only [takeTurn, Function.iterate_succ_apply']

/-! ### Witnesses: the host -/

theorem witness_TooLongMessagesAreRefused :
    (∃ msg : List Byte, 2 ^ 61 ≤ msg.length) ∧ ∃ msg : List Byte, msg.length ≤ 2 ^ 61 - 1 :=
  ⟨⟨List.replicate (2 ^ 61) 0, by rw [List.length_replicate]⟩, [], by decide⟩
theorem witness_PaddingBoundaryIsFiftyFive : 55 % 64 = 55 ∧ 120 % 64 = 56 := by decide
/-- A byte of each part of the padded "abc": message, marker, zeros, length. -/
theorem witness_PaddedBufferByteByByte :
    (padMessage abc)[2]? = some 0x63 ∧ (padMessage abc)[3]? = some 0x80 ∧ (padMessage abc)[4]? = some 0 ∧
      (padMessage abc)[55]? = some 0 ∧ (padMessage abc)[56]? = some 0 ∧ (padMessage abc)[63]? = some 0x18 := by decide
theorem witness_BlockWordsAreBigEndian : 0 < (padMessage abc).length / 64 ∧ 15 < 16 := by decide
/-- Operands on both sides of every bound. -/
theorem witness_AssembledLinesDecodeToTheirCommand :
    assembleLine (.writeM 15 (2 ^ 32 - 1)) = some (0x0200000f, 0xffffffff) ∧
    assembleLine (.readM 15) = some (0x0300000f, 0) ∧ assembleLine (.readH 7) = some (0x05000007, 0) ∧
    assembleLine (.readDig 31) = some (0x0600001f, 0) ∧ assembleLine (.writeM 16 0) = none ∧
    assembleLine (.writeM 0 (2 ^ 32)) = none ∧ assembleLine (.readM 16) = none ∧
    assembleLine (.readDig 32) = none := by decide

/-- The order of moves in which the engine runs as soon as it may. -/
def moves : List Actor :=
  List.replicate 18 .host ++ List.replicate 65 .engine ++ List.replicate 33 .host

/-- A run of "compute digest" on the empty message has come to its end. -/
def finished (who : List Actor) (y : System) : Bool :=
  match systemRun who y with
  | .next z => z.agent.code.isEmpty
  | .fault _ => false
  | .refused _ => false

theorem finished_next (who : List Actor) (y : System) (h : finished who y = true) :
    ∃ z, systemRun who y = .next z ∧ z.agent.code = [] := by
  unfold finished at h
  cases hr : systemRun who y with
  | next z => rw [hr] at h; exact ⟨z, rfl, by simpa using h⟩
  | fault f => rw [hr] at h; cases h
  | refused r => rw [hr] at h; cases h

theorem test_moves_finish :
    finished moves ⟨State.reset, ⟨digestOps (parseBlocks (padMessage [])), []⟩⟩ = true := by decide +kernel

theorem witness_ComputeDigestReturnsTheDigest :
    computeDigest [] = .ok (digestOps (parseBlocks (padMessage []))) ∧ State.reset.busy = false ∧
      (∀ a ∈ moves, a ≠ .reset) ∧
        ∃ y, systemRun moves ⟨State.reset, ⟨digestOps (parseBlocks (padMessage [])), []⟩⟩ = .next y ∧
          y.agent.code = [] := by
  exact ⟨rfl, rfl, by simp [moves],
    finished_next _ _ test_moves_finish⟩

/-- Host and engine in turn. -/
def alternate (n : Nat) : Actor := if n % 2 = 0 then .host else .engine

/-- The next system, which there always is. -/
def nextSystem (who : Actor) (y : System) : System :=
  match systemStep who y with
  | .next z => z
  | .fault _ => y
  | .refused _ => y

/-- A host that compresses and waits, with a core that starts at reset. -/
def waitingRun : Nat → System
  | 0 => ⟨State.reset, ⟨[sendInstr .compress, .poll], []⟩⟩
  | n + 1 => nextSystem (alternate n) (waitingRun n)

theorem nextSystem_eq (who : Actor) (y : System) : systemStep who y = .next (nextSystem who y) := by
  obtain ⟨z, hz⟩ := systemStep_next who y
  rw [nextSystem, hz]

theorem witness_EveryHostProgramEnds :
    IsSystemExecution alternate waitingRun ∧ EngineFair alternate waitingRun ∧
      HostProceeds alternate waitingRun ∧ (waitingRun 0).agent.code ≠ [] := by
  refine ⟨fun n => nextSystem_eq _ _, fun n _ => ⟨2 * n + 1, by omega, ?_⟩,
    fun n _ => ⟨2 * n, by omega, ?_⟩, by decide⟩
  · rw [alternate, if_neg (by omega)]
  · rw [alternate, if_pos (by omega)]

end Sys2Proof.Machine.Tests
end

section
/-! PROOFS. The state: who changes which element (R11), when the engine moves (R85), and that hidden state is never
observed (R23, R116). -/

namespace Sys2Proof.Machine

/-! ### Turns -/

@[simp] theorem takeTurn_engine (s : State) : takeTurn .engine s = .next (engineStep s) := rfl

theorem exec_accepted (i : Instr) (s : State) (h : s.busy = true → acceptedWhileBusy i = true) :
    exec i s = .next (performed i s) := by
  cases hb : s.busy with
  | false => exact exec_idle i s hb
  | true => simp [exec_eq, h hb]

/-- A command that BUSY rejects is performed on an idle core only. -/
theorem idle_of_performed {i : Instr} {s : State} (h : s.busy = true → acceptedWhileBusy i = true)
    (hi : acceptedWhileBusy i = false) : s.busy = false := by
  cases hb : s.busy with
  | false => rfl
  | true => simp [hi] at h; simp [h] at hb

/-- The value WRITE_M carries is the transaction's write data (R46). -/
theorem value_of_decode_writeM {cmd wdata value : Word} {idx : Fin 16}
    (h : decode cmd wdata = some (.writeM idx value)) : value = wdata := by
  obtain ⟨r, -, hr⟩ := Option.map_eq_some_iff.mp h
  cases hm : r.mnemonic <;> simp [build, hm] at hr
  exact hr.2.symm

/-! ### The host cannot tell hidden state apart -/

/-- `s` with the hidden state (W, a .. h, t) of `x`. -/
def State.withHidden (s x : State) : State := { s with W := x.W, vars := x.vars, t := x.t }

/-- While BUSY = 1 the hidden state that the running block still reads is the same. -/
def LiveAgree (s u : State) : Prop :=
  s.busy = true → s.t = u.t ∧ s.vars = u.vars ∧ ∀ i : Fin 64, i.val < max 16 s.t.val → s.W[i] = u.W[i]

/-- States the host cannot tell apart differ in hidden state alone, and there in nothing that is still read. -/
theorem hostAgree_iff (s u : State) : HostAgree s u ↔ u = s.withHidden u ∧ LiveAgree s u := by
  constructor
  · rintro ⟨hH, hM, hbusy, hIll, hErr, hturns, hreply, hlive⟩
    refine ⟨?_, hlive⟩
    rw [State.withHidden, hH, hM, hbusy, hIll, hErr, hturns, hreply]
  · rintro ⟨hu, hlive⟩
    rw [hu]
    exact ⟨rfl, rfl, rfl, rfl, rfl, rfl, rfl, hlive⟩

theorem hostAgree_refl (s : State) : HostAgree s s :=
  (hostAgree_iff s s).mpr ⟨rfl, fun _ => ⟨rfl, rfl, fun _ _ => rfl⟩⟩

/-- `f` neither reads nor writes hidden state, and leaves BUSY. -/
def BlindToHidden (f : State → State) : Prop :=
  ∀ s x : State, f (s.withHidden x) = (f s).withHidden x ∧ (f s).busy = s.busy

theorem BlindToHidden.keeps_hidden {f : State → State} (hf : BlindToHidden f) (s : State) :
    f s = (f s).withHidden s := (hf s s).1

theorem BlindToHidden.keeps_liveAgree {f : State → State} (hf : BlindToHidden f) {s u : State}
    (h : LiveAgree s u) : LiveAgree (f s) (f u) := by
  intro hb
  rw [(hf s s).2] at hb
  rw [hf.keeps_hidden s, hf.keeps_hidden u]
  exact h hb

theorem BlindToHidden.keeps_hostAgree {f : State → State} (hf : BlindToHidden f) {s u : State}
    (h : HostAgree s u) : HostAgree (f s) (f u) := by
  obtain ⟨hu, hlive⟩ := (hostAgree_iff s u).mp h
  refine (hostAgree_iff _ _).mpr ⟨?_, hf.keeps_liveAgree hlive⟩
  calc f u = f (s.withHidden u) := by rw [← hu]
    _ = (f s).withHidden u := (hf s u).1
    _ = (f s).withHidden (f u) := by rw [hf.keeps_hidden u]; rfl

theorem blind_rejectIllegal : BlindToHidden rejectIllegal := fun _ _ => ⟨rfl, rfl⟩

theorem blind_rejectBusy : BlindToHidden rejectBusy := fun _ _ => ⟨rfl, rfl⟩

theorem blind_setTurns (rest : List Turn) : BlindToHidden fun s => { s with turns := rest } :=
  fun _ _ => ⟨rfl, rfl⟩

/-- COMPRESS is the only command that touches hidden state (R74). -/
theorem blind_performed {i : Instr} (hi : i ≠ .compress) : BlindToHidden (performed i) := by
  intro s x
  cases i with
  | compress => exact absurd rfl hi
  | _ => exact ⟨rfl, rfl⟩

/-- An accepted COMPRESS writes all the hidden state that its block reads, from H and M (R74). -/
theorem performed_compress_keeps_hostAgree {s u : State} (h : HostAgree s u) :
    HostAgree (performed .compress s) (performed .compress u) := by
  obtain ⟨hH, hM, -, hIll, hErr, hturns, -, -⟩ := h
  simp only [HostAgree, performed, answer_H, answer_M, answer_busy, answer_errIllegal, answer_errBusy,
    answer_turns, answer_reply, answer_t, answer_vars, answer_W]
  refine ⟨hH, hM, trivial, hIll, hErr, hturns, trivial, fun _ => ⟨trivial, congrArg seed hH, fun i hi => ?_⟩⟩
  have hi16 : i.val < 16 := by simpa using hi
  calc (loadBlock s.W s.M)[i] = s.M[i.val] := loadBlock_get_low _ _ _ hi16
    _ = u.M[i.val] := by rw [hM]
    _ = (loadBlock u.W u.M)[i] := (loadBlock_get_low _ _ _ hi16).symm

theorem performed_keeps_hostAgree (i : Instr) {s u : State} (h : HostAgree s u) :
    HostAgree (performed i s) (performed i u) := by
  by_cases hi : i = .compress
  · subst hi
    exact performed_compress_keeps_hostAgree h
  · exact (blind_performed hi).keeps_hostAgree h

/-- Schedules that agree below `max 16 t` agree below `max 16 (t + 1)` once entry t is expanded: the term of entry t
reads earlier entries only (R64). -/
theorem expandAt_extends_agreement {V W : Vector Word 64} {t : Nat}
    (h : ∀ i : Fin 64, i.val < max 16 t → V[i] = W[i]) :
    ∀ i : Fin 64, i.val < max 16 (t + 1) → (expandAt V t)[i] = (expandAt W t)[i] := by
  rintro ⟨i, hi64⟩ hi
  simp only [Fin.getElem_fin] at hi ⊢
  by_cases hti : t = i ∧ 16 ≤ t
  · obtain ⟨rfl, h16⟩ := hti
    rw [expandAt_get_self _ _ ⟨h16, hi64⟩, expandAt_get_self _ _ ⟨h16, hi64⟩]
    exact schedTerm_congr _ _ _ _ fun k hk => h k (by omega)
  · have unchanged (X : Vector Word 64) : (expandAt X t)[i] = X[i] := by
      by_cases h16 : 16 ≤ t
      · exact expandAt_get_ne _ _ _ _ fun e => hti ⟨e, h16⟩
      · rw [expandAt, dif_neg (by omega)]
    rw [unchanged, unchanged]
    exact h ⟨i, hi64⟩ (by simp only; omega)

/-- A round step reads only the live hidden state, and makes one more entry of W live (R86). -/
theorem roundStep_keeps_hostAgree {s u : State} (h : HostAgree s u) (hb : s.busy = true) (hs : s.t.val < 64)
    (hu : u.t.val < 64) : HostAgree (roundStep s hs) (roundStep u hu) := by
  obtain ⟨hH, hM, hbusy, hIll, hErr, hturns, hreply, hlive⟩ := h
  obtain ⟨ht, hvars, hW⟩ := hlive hb
  have hW' := expandAt_extends_agreement hW
  refine ⟨hH, hM, hbusy, hIll, hErr, hturns, hreply, fun _ => ⟨?_, ?_, ?_⟩⟩
  · simp [ht]
  · simp only [roundStep_vars]
    rw [← ht, ← hvars]
    exact roundAt_congr _ _ _ _ fun h64 => hW' ⟨s.t.val, h64⟩ (by simp)
  · intro i hi
    simpa [ht] using hW' i (by simpa using hi)

/-- The accumulate step reads a .. h and ends the block: nothing hidden is live after it (R87). -/
theorem accumulateStep_keeps_hostAgree {s u : State} (h : HostAgree s u) (hb : s.busy = true) :
    HostAgree (accumulateStep s) (accumulateStep u) := by
  obtain ⟨hH, hM, -, hIll, hErr, hturns, hreply, hlive⟩ := h
  obtain ⟨-, hvars, -⟩ := hlive hb
  refine ⟨?_, hM, rfl, hIll, hErr, hturns, hreply, fun hb' => absurd hb' (by simp)⟩
  simp [hH, hvars]

theorem engineStep_keeps_hostAgree {s u : State} (h : HostAgree s u) :
    HostAgree (engineStep s) (engineStep u) := by
  obtain ⟨-, -, hbusy, -, -, -, -, hlive⟩ := id h
  obtain ⟨hb, es⟩ | ⟨ht, hb, es⟩ | ⟨hb, ht, es⟩ := engineStep_cases s
  · rw [es, engineStep_idle u (hbusy ▸ hb)]
    exact h
  · have hu : u.t.val < 64 := (hlive hb).1 ▸ ht
    rw [es, engineStep_round u (hbusy ▸ hb) hu]
    exact roundStep_keeps_hostAgree h hb ht hu
  · have hu : u.t = 64 := (hlive hb).1 ▸ ht
    rw [es, engineStep_accumulate u (hbusy ▸ hb) (by simp [hu])]
    exact accumulateStep_keeps_hostAgree h hb

theorem takeReset_eq_of_hostAgree {s u : State} (h : HostAgree s u) : takeReset s = takeReset u := by
  obtain ⟨-, -, -, -, -, hturns, -, -⟩ := h
  rw [takeReset, takeReset, hturns]

theorem takeTurn_keeps_hostAgree {turn : Turn} {s u s' : State} (h : HostAgree s u)
    (hs : takeTurn turn s = .next s') : ∃ u', takeTurn turn u = .next u' ∧ HostAgree s' u' := by
  obtain ⟨-, -, hbusy, -, -, -, -, -⟩ := id h
  obtain ⟨cmd, wdata, rfl, hd, rfl⟩ | ⟨cmd, wdata, i, rfl, hd, hb, ha, rfl⟩ |
    ⟨cmd, wdata, i, rfl, hd, ha, rfl⟩ | ⟨rfl, rfl⟩ | ⟨rfl, rfl⟩ := takeTurn_cases hs
  · exact ⟨_, takeTurn_host_illegal cmd wdata u hd, blind_rejectIllegal.keeps_hostAgree h⟩
  · exact ⟨_, (takeTurn_host_legal cmd wdata i u hd).trans (exec_busy i u (hbusy ▸ hb) ha),
      blind_rejectBusy.keeps_hostAgree h⟩
  · exact ⟨_, (takeTurn_host_legal cmd wdata i u hd).trans (exec_accepted i u (hbusy ▸ ha)),
      performed_keeps_hostAgree i h⟩
  · exact ⟨_, takeTurn_engine u, engineStep_keeps_hostAgree h⟩
  · exact ⟨_, rfl, takeReset_eq_of_hostAgree h ▸ hostAgree_refl _⟩

/-- Settles O42: a turn keeps the agreement, and agreeing states have the same next turn. -/
theorem hiddenStateIsNeverObserved : Obligations.HiddenStateIsNeverObserved := by
  intro s u s' h hs
  obtain ⟨-, -, -, -, -, hturns, -, -⟩ := id h
  cases ht : s.turns with
  | nil =>
    rw [step_of_no_turns s ht] at hs
    injection hs with hs
    exact ⟨_, step_of_no_turns u (hturns ▸ ht), hs ▸ engineStep_keeps_hostAgree h⟩
  | cons turn rest =>
    rw [step_of_turns s turn rest ht] at hs
    rw [step_of_turns u turn rest (hturns ▸ ht)]
    exact takeTurn_keeps_hostAgree ((blind_setTurns rest).keeps_hostAgree h) hs

/-! ### The engine moves exactly while BUSY = 1 -/

/-- A round step moves t and the accumulate step moves BUSY, so a busy engine always changes the state. -/
theorem engineStep_eq_self_iff (s : State) : engineStep s = s ↔ s.busy = false := by
  refine ⟨fun h => ?_, engineStep_idle s⟩
  obtain ⟨hb, -⟩ | ⟨ht, -, e⟩ | ⟨-, -, e⟩ := engineStep_cases s
  · exact hb
  · have h1 : s.t.val + 1 = s.t.val := congrArg (·.t.val) (e.symm.trans h)
    omega
  · exact (congrArg (·.busy) (e.symm.trans h)).symm

theorem le_engineStep_t (s : State) : s.t.val ≤ (engineStep s).t.val := by
  obtain ⟨-, e⟩ | ⟨ht, -, e⟩ | ⟨-, -, e⟩ := engineStep_cases s <;> simp [e]

/-- Settles O33: the engine's turn is `engineStep`, which is the identity exactly if BUSY = 0 and never lowers t. -/
theorem engineMovesExactlyWhileBusy : Obligations.EngineMovesExactlyWhileBusy := by
  intro s
  constructor
  · rw [takeTurn_engine, ← engineStep_eq_self_iff, Host.Outcome.next.injEq]
  · intro t h
    rw [takeTurn_engine] at h
    injection h with h
    subst h
    exact ⟨le_engineStep_t s, Nat.le_of_lt_succ (engineStep s).t.isLt⟩

/-! ### What changes each element (R11): commands -/

theorem init_of_performed_H_ne {i : Instr} {s : State} (h : (performed i s).H ≠ s.H) : i = .init := by
  cases i with
  | init => rfl
  | _ => simp [performed] at h

theorem writeM_of_performed_M_ne {i : Instr} {s : State} (h : (performed i s).M ≠ s.M) :
    ∃ idx value, i = .writeM idx value := by
  cases i with
  | writeM idx value => exact ⟨idx, value, rfl⟩
  | _ => simp [performed] at h

/-- The hidden state: the Message Schedule, the working variables and the round counter. -/
def State.hidden (s : State) : Vector Word 64 × Vars × Fin 65 := (s.W, s.vars, s.t)

theorem compress_of_performed_hidden_ne {i : Instr} {s : State} (h : (performed i s).hidden ≠ s.hidden) :
    i = .compress := by
  by_contra hi
  exact h (by rw [(blind_performed hi).keeps_hidden s]; rfl)

theorem compress_of_performed_busy_ne {i : Instr} {s : State} (h : (performed i s).busy ≠ s.busy) :
    i = .compress := by
  by_contra hi
  exact h (blind_performed hi s s).2

theorem clearErr_of_performed_errIllegal_ne {i : Instr} {s : State}
    (h : (performed i s).errIllegal ≠ s.errIllegal) : i = .clearErr := by
  cases i with
  | clearErr => rfl
  | _ => simp [performed] at h

theorem clearErr_of_performed_errBusy_ne {i : Instr} {s : State}
    (h : (performed i s).errBusy ≠ s.errBusy) : i = .clearErr := by
  cases i with
  | clearErr => rfl
  | _ => simp [performed] at h

/-! ### What changes each element (R11): the engine -/

@[simp] theorem engineStep_M (s : State) : (engineStep s).M = s.M := (engineStep_frame s).1
@[simp] theorem engineStep_errIllegal (s : State) : (engineStep s).errIllegal = s.errIllegal :=
  (engineStep_frame s).2.1
@[simp] theorem engineStep_errBusy (s : State) : (engineStep s).errBusy = s.errBusy :=
  (engineStep_frame s).2.2.1

theorem accumulates_of_engineStep_H_ne {s : State} (h : (engineStep s).H ≠ s.H) :
    s.busy = true ∧ s.t = 64 := by
  obtain ⟨-, e⟩ | ⟨_, -, e⟩ | ⟨hb, ht, -⟩ := engineStep_cases s
  · exact absurd (by rw [e]) h
  · exact absurd (by rw [e, roundStep_H]) h
  · exact ⟨hb, ht⟩

theorem rounds_of_engineStep_hidden_ne {s : State} (h : (engineStep s).hidden ≠ s.hidden) :
    s.busy = true ∧ s.t.val < 64 := by
  obtain ⟨-, e⟩ | ⟨ht, hb, -⟩ | ⟨-, -, e⟩ := engineStep_cases s
  · exact absurd (by rw [e]) h
  · exact ⟨hb, ht⟩
  · exact absurd (by rw [e]; rfl) h

theorem accumulates_of_engineStep_busy_ne {s : State} (h : (engineStep s).busy ≠ s.busy) :
    (engineStep s).busy = false ∧ s.t = 64 := by
  obtain ⟨-, e⟩ | ⟨_, -, e⟩ | ⟨-, ht, e⟩ := engineStep_cases s
  · exact absurd (by rw [e]) h
  · exact absurd (by rw [e, roundStep_busy]) h
  · exact ⟨by rw [e, accumulateStep_busy], ht⟩

/-! ### What changes each element (R11): turns -/

section
variable {turn : Turn} {s t : State}

/-- An element `f` that both rejections leave alone is changed, reset aside, by a performed command or by the
engine. -/
theorem performed_or_engine_of_ne {α : Type} (f : State → α) (h : takeTurn turn s = .next t) (hr : turn ≠ .reset)
    (hI : f (rejectIllegal s) = f s) (hB : f (rejectBusy s) = f s) (hne : f t ≠ f s) :
    (∃ cmd wdata i, turn = .host cmd wdata ∧ decode cmd wdata = some i ∧
      (s.busy = true → acceptedWhileBusy i = true) ∧ t = performed i s) ∨
    (turn = .engine ∧ t = engineStep s) := by
  obtain ⟨_, _, -, -, rfl⟩ | ⟨_, _, _, -, -, -, -, rfl⟩ | hp | he | ⟨rfl, -⟩ := takeTurn_cases h
  · exact absurd hI hne
  · exact absurd hB hne
  · exact .inl hp
  · exact .inr he
  · exact absurd rfl hr

theorem writers_of_H (h : takeTurn turn s = .next t) (hr : turn ≠ .reset) (hne : t.H ≠ s.H) :
    (s.busy = false ∧ ∃ cmd wdata, turn = .host cmd wdata ∧ decode cmd wdata = some .init) ∨
      (s.busy = true ∧ s.t = 64 ∧ turn = .engine) := by
  obtain ⟨cmd, wdata, i, hturn, hd, ha, rfl⟩ | ⟨hturn, rfl⟩ :=
    performed_or_engine_of_ne State.H h hr rfl rfl hne
  · obtain rfl := init_of_performed_H_ne hne
    exact .inl ⟨idle_of_performed ha rfl, cmd, wdata, hturn, hd⟩
  · obtain ⟨hb, ht⟩ := accumulates_of_engineStep_H_ne hne
    exact .inr ⟨hb, ht, hturn⟩

theorem writers_of_M (h : takeTurn turn s = .next t) (hr : turn ≠ .reset) (hne : t.M ≠ s.M) :
    s.busy = false ∧
      ∃ cmd wdata idx, turn = .host cmd wdata ∧ decode cmd wdata = some (.writeM idx wdata) := by
  obtain ⟨cmd, wdata, i, hturn, hd, ha, rfl⟩ | ⟨-, rfl⟩ :=
    performed_or_engine_of_ne State.M h hr rfl rfl hne
  · obtain ⟨idx, value, rfl⟩ := writeM_of_performed_M_ne hne
    obtain rfl := value_of_decode_writeM hd
    exact ⟨idle_of_performed ha rfl, cmd, value, idx, hturn, hd⟩
  · exact absurd (engineStep_M s) hne

theorem writers_of_hidden (h : takeTurn turn s = .next t) (hr : turn ≠ .reset) (hne : t.hidden ≠ s.hidden) :
    (s.busy = false ∧ ∃ cmd wdata, turn = .host cmd wdata ∧ decode cmd wdata = some .compress) ∨
      (s.busy = true ∧ s.t.val < 64 ∧ turn = .engine) := by
  obtain ⟨cmd, wdata, i, hturn, hd, ha, rfl⟩ | ⟨hturn, rfl⟩ :=
    performed_or_engine_of_ne State.hidden h hr rfl rfl hne
  · obtain rfl := compress_of_performed_hidden_ne hne
    exact .inl ⟨idle_of_performed ha rfl, cmd, wdata, hturn, hd⟩
  · obtain ⟨hb, ht⟩ := rounds_of_engineStep_hidden_ne hne
    exact .inr ⟨hb, ht, hturn⟩

theorem writers_of_busy (h : takeTurn turn s = .next t) (hr : turn ≠ .reset) (hne : t.busy ≠ s.busy) :
    (t.busy = true ∧ ∃ cmd wdata, turn = .host cmd wdata ∧ decode cmd wdata = some .compress) ∨
      (t.busy = false ∧ s.t = 64 ∧ turn = .engine) := by
  obtain ⟨cmd, wdata, i, hturn, hd, -, rfl⟩ | ⟨hturn, rfl⟩ :=
    performed_or_engine_of_ne State.busy h hr rfl rfl hne
  · obtain rfl := compress_of_performed_busy_ne hne
    exact .inl ⟨by simp [performed], cmd, wdata, hturn, hd⟩
  · obtain ⟨hb, ht⟩ := accumulates_of_engineStep_busy_ne hne
    exact .inr ⟨hb, ht, hturn⟩

theorem writers_of_errIllegal (h : takeTurn turn s = .next t) (hr : turn ≠ .reset)
    (hne : t.errIllegal ≠ s.errIllegal) :
    ∃ cmd wdata, turn = .host cmd wdata ∧
      ((t.errIllegal = true ∧ decode cmd wdata = none) ∨
        (t.errIllegal = false ∧ decode cmd wdata = some .clearErr)) := by
  obtain ⟨cmd, wdata, hturn, hd, rfl⟩ | ⟨_, _, _, -, -, -, -, rfl⟩ | ⟨cmd, wdata, i, hturn, hd, -, rfl⟩ |
    ⟨-, rfl⟩ | ⟨rfl, -⟩ := takeTurn_cases h
  · exact ⟨cmd, wdata, hturn, .inl ⟨rfl, hd⟩⟩
  · exact absurd rfl hne
  · obtain rfl := clearErr_of_performed_errIllegal_ne hne
    exact ⟨cmd, wdata, hturn, .inr ⟨rfl, hd⟩⟩
  · exact absurd (engineStep_errIllegal s) hne
  · exact absurd rfl hr

theorem writers_of_errBusy (h : takeTurn turn s = .next t) (hr : turn ≠ .reset)
    (hne : t.errBusy ≠ s.errBusy) :
    ∃ cmd wdata i, turn = .host cmd wdata ∧ decode cmd wdata = some i ∧
      ((t.errBusy = true ∧ s.busy = true ∧ acceptedWhileBusy i = false) ∨
        (t.errBusy = false ∧ i = .clearErr)) := by
  obtain ⟨_, _, -, -, rfl⟩ | ⟨cmd, wdata, i, hturn, hd, hb, ha, rfl⟩ | ⟨cmd, wdata, i, hturn, hd, -, rfl⟩ |
    ⟨-, rfl⟩ | ⟨rfl, -⟩ := takeTurn_cases h
  · exact absurd rfl hne
  · exact ⟨cmd, wdata, i, hturn, hd, .inl ⟨rfl, hb, ha⟩⟩
  · obtain rfl := clearErr_of_performed_errBusy_ne hne
    exact ⟨cmd, wdata, _, hturn, hd, .inr ⟨rfl, rfl⟩⟩
  · exact absurd (engineStep_errBusy s) hne
  · exact absurd rfl hr

end

theorem hidden_ne_of_ne {s t : State} (h : t.W ≠ s.W ∨ t.vars ≠ s.vars ∨ t.t ≠ s.t) : t.hidden ≠ s.hidden := by
  intro e
  obtain ⟨hW, hvars, ht⟩ : t.W = s.W ∧ t.vars = s.vars ∧ t.t = s.t := by simpa [State.hidden] using e
  simp [hW, hvars, ht] at h

/-- Settles O35, element by element. -/
theorem writersOfEveryElement : Obligations.WritersOfEveryElement := fun _ _ _ h hr =>
  ⟨writers_of_H h hr, writers_of_M h hr, fun hne => writers_of_hidden h hr (hidden_ne_of_ne hne),
    writers_of_busy h hr, writers_of_errIllegal h hr, writers_of_errBusy h hr⟩

end Sys2Proof.Machine
end

section
/-! PROOFS. What is stored and what is read: commands in a row on one core (R33, R36), the two views of the digest
(R28, R29), and the length field in the last block (R27). -/

namespace Sys2Proof.Machine

/-! ### Bytes of a word -/

/-- `BE32` of the four bytes above bit `k`, most significant first, is the slice of 32 bits at `k`. -/
theorem be32_extractLsb' {w : Nat} (x : BitVec w) (k : Nat) :
    be32 (x.extractLsb' (k + 24) 8) (x.extractLsb' (k + 16) 8) (x.extractLsb' (k + 8) 8) (x.extractLsb' k 8) =
      x.extractLsb' k 32 := by
  apply BitVec.eq_of_toNat_eq
  rw [be32_toNat]
  simp only [BitVec.extractLsb'_toNat, Nat.shiftRight_eq_div_pow, pow_add, ← Nat.div_div_eq_div_mul]
  generalize x.toNat / 2 ^ k = n
  omega

/-- `BE32` is the inverse of `BE` (R9, R68). -/
theorem be32_bytes_of_word (x : Word) :
    be32 (x.extractLsb' 24 8) (x.extractLsb' 16 8) (x.extractLsb' 8 8) (x.extractLsb' 0 8) = x :=
  (be32_extractLsb' x 0).trans BitVec.extractLsb'_eq_self

/-- Byte `k` of words written out one after another is byte `k mod 4` of word `k div 4`. -/
theorem flatMap_beBytes_getElem? (ws : List Word) (k : Nat) :
    (ws.flatMap beBytes)[k]? = ws[k / 4]?.map fun w => w.extractLsb' (24 - 8 * (k % 4)) 8 := by
  induction ws generalizing k with
  | nil => simp
  | cons w ws ih =>
    match k with
    | 0 | 1 | 2 | 3 => simp [beBytes]
    | k + 4 => simpa [beBytes] using ih k

theorem serialize_length (H : Vector Word 8) : (serialize H).length = 32 := by
  simp [serialize, beBytes, List.length_flatMap]

theorem serialize_getElem? (H : Vector Word 8) (k : Nat) (hk : k < 32) :
    (serialize H)[k]? = some ((H[k / 4]'(by omega)).extractLsb' (24 - 8 * (k % 4)) 8) := by
  simp [serialize, flatMap_beBytes_getElem?, show k / 4 < 8 by omega]

/-- Settles O29: every word of H is written as four bytes. -/
theorem serializerIsBigEndian : Obligations.SerializerIsBigEndian := fun H =>
  ⟨serialize_length H, serialize_getElem? H⟩

/-! ### The two views of the digest -/

/-- Byte `p` of word `j` of H is digest byte `4j + p` (R82). -/
theorem digestByte_of_word (s : State) (j : Fin 8) (p : Nat) (hp : p < 4) :
    digestByte ⟨4 * j.val + p, by omega⟩ s = (getH j s).extractLsb' (24 - 8 * p) 8 := by
  have hword : digestWord ⟨4 * j.val + p, by omega⟩ = j := Fin.ext (by simp only [digestWord]; omega)
  rw [digestByte, hword, show (4 * j.val + p) % 4 = p by omega]

/-- Settles O22: the four bytes are those of the word, and `BE32` puts them together again. -/
theorem digestViewsAgree : Obligations.DigestViewsAgree := by
  intro s j hb
  have readDig (p : Nat) (hp : p < 4) : exec (.readDig ⟨4 * j.val + p, by omega⟩) s =
      .next { s with reply := some ⟨.ok, ((getH j s).extractLsb' (24 - 8 * p) 8).setWidth 32⟩ } := by
    rw [← digestByte_of_word s j p hp]
    exact exec_idle _ s hb
  refine ⟨_, _, _, _, readDig 0 (by decide), readDig 1 (by decide), readDig 2 (by decide),
    readDig 3 (by decide), ?_⟩
  rw [be32_bytes_of_word]
  exact exec_idle _ s hb

/-! ### The next command -/

/-- Settles O6: the listed turn is taken, and its word is legal. -/
theorem stepRunsTheDecodedCommand : Obligations.StepRunsTheDecodedCommand := by
  intro s cmd wdata rest i hturns hdecode
  rw [step_of_turns s _ rest hturns, takeTurn_host_legal cmd wdata i _ hdecode]

/-- A block word read after a write is the word written, at its index and at no other (R79, R80). -/
theorem getM_setM (idx j : Fin 16) (v : Word) (s : State) :
    getM j (setM idx v s) = if j = idx then v else s.M[j] := by
  simp [getM, Vector.getElem_set, Fin.ext_iff, eq_comm]

/-- Settles O23: the write leaves the core idle, so the read is performed on the M it wrote. -/
theorem readMSeesTheEarlierWrite : Obligations.ReadMSeesTheEarlierWrite := by
  intro s t idx j v hb h
  rw [exec_idle _ s hb] at h
  injection h with h
  subst h
  rw [← getM_setM idx j v s]
  exact exec_idle (.readM j) _ hb

/-! ### The same command again -/

/-- All `exec` can do. -/
theorem exec_cases {i : Instr} {s t : State} (h : exec i s = .next t) :
    (s.busy = true ∧ acceptedWhileBusy i = false ∧ t = rejectBusy s) ∨
      ((s.busy = true → acceptedWhileBusy i = true) ∧ t = performed i s) := by
  by_cases ha : s.busy = true → acceptedWhileBusy i = true
  · rw [exec_accepted i s ha] at h
    injection h with h
    exact .inr ⟨ha, h.symm⟩
  · obtain ⟨hb, hi⟩ : s.busy = true ∧ acceptedWhileBusy i = false := by simpa using ha
    rw [exec_busy i s hb hi] at h
    injection h with h
    exact .inl ⟨hb, hi, h.symm⟩

/-- Every command but COMPRESS writes values that do not depend on what it writes (R33). -/
theorem performed_performed {i : Instr} (hi : i ≠ .compress) (s : State) :
    performed i (performed i s) = performed i s := by
  cases i with
  | compress => exact absurd rfl hi
  | writeM idx value => simp [performed, answer, setM]
  | _ => rfl

theorem exec_again {i : Instr} (hi : i ≠ .compress) {s t : State} (h : exec i s = .next t) :
    exec i t = .next t := by
  obtain ⟨hb, ha, rfl⟩ | ⟨ha, rfl⟩ := exec_cases h
  · exact exec_busy i (rejectBusy s) hb ha
  · have hbusy : (performed i s).busy = s.busy := (blind_performed hi s s).2
    rw [exec_accepted i _ (hbusy ▸ ha), performed_performed hi]

/-- A read writes the port's outputs alone (R33). -/
theorem performed_read {i : Instr} (s : State) (h : i.mnemonic = .readM ∨ i.mnemonic = .readH ∨
    i.mnemonic = .readDig ∨ i.mnemonic = .readStatus ∨ i.mnemonic = .nop) :
    performed i s = { s with reply := (performed i s).reply } := by
  cases i with
  | nop | readM | readH | readDig | readStatus => rfl
  | init | writeM | compress | clearErr => simp [Instr.mnemonic] at h

/-- Settles O24: a command but COMPRESS leaves BUSY, so the second issue is answered as the first. -/
theorem commandsButCompressAreIdempotent : Obligations.CommandsButCompressAreIdempotent := by
  intro i s t h
  refine ⟨fun hi => exec_again hi h, fun hb hread => ?_⟩
  rw [exec_idle i s hb] at h
  injection h with h
  rw [← h]
  exact performed_read s hread

/-! ### The padded buffer -/

/-- The padded length is the least multiple of 64 that holds the message, the marker and the length field (R93). -/
theorem paddedLength_eq (L : Nat) : paddedLength L = 64 * ((L + 8) / 64 + 1) := by
  unfold paddedLength zeroBits bitLength
  omega

theorem add_nine_le_paddedLength (L : Nat) : L + 9 ≤ paddedLength L := by
  rw [paddedLength_eq]
  omega

/-- The length of what stands before the length field (R94). -/
theorem length_beforeLengthField (msg : List Byte) :
    (msg ++ [0x80] ++ List.replicate (paddedLength msg.length - msg.length - 9) (0 : Byte)).length =
      paddedLength msg.length - 8 := by
  have := add_nine_le_paddedLength msg.length
  simp only [List.length_append, List.length_singleton, List.length_replicate]
  omega

theorem lengthField_getElem? (L i : Nat) (hi : i < 8) :
    (lengthField L)[i]? = some ((BitVec.ofNat 64 (L * 8)).extractLsb' (56 - 8 * i) 8) := by
  match i with
  | 0 | 1 | 2 | 3 | 4 | 5 | 6 | 7 => rfl

theorem padMessage_length (msg : List Byte) : (padMessage msg).length = paddedLength msg.length := by
  have := add_nine_le_paddedLength msg.length
  have hfield : (lengthField msg.length).length = 8 := rfl
  rw [padMessage, List.length_append, length_beforeLengthField, hfield]
  omega

/-- The last eight bytes of the padded buffer are the length field (R94). -/
theorem padMessage_getElem?_lengthField (msg : List Byte) (i : Nat) (hi : i < 8) :
    (padMessage msg)[paddedLength msg.length - 8 + i]? =
      some ((BitVec.ofNat 64 (msg.length * 8)).extractLsb' (56 - 8 * i) 8) := by
  rw [padMessage, ← length_beforeLengthField, List.getElem?_append_right (Nat.le_add_right _ _),
    Nat.add_sub_cancel_left, lengthField_getElem? _ _ hi]

/-! ### The last block -/

theorem parseBlocks_padMessage_getLast? (msg : List Byte) :
    (parseBlocks (padMessage msg)).getLast? = some (parseBlock (padMessage msg) ((msg.length + 8) / 64)) := by
  have hblocks : (padMessage msg).length / 64 = (msg.length + 8) / 64 + 1 := by
    rw [padMessage_length, paddedLength_eq]
    omega
  rw [parseBlocks, hblocks, List.range_succ, List.map_append, List.map_singleton, List.getLast?_concat]

/-- The last block ends with the length field: its byte `56 + i` is byte `i` of the field. -/
theorem bufByte_lastBlock (msg : List Byte) (i : Nat) (hi : i < 8) :
    bufByte (padMessage msg) ((msg.length + 8) / 64 * 64 + 56 + i) =
      (BitVec.ofNat 64 (msg.length * 8)).extractLsb' (56 - 8 * i) 8 := by
  have hpos : (msg.length + 8) / 64 * 64 + 56 + i = paddedLength msg.length - 8 + i := by
    rw [paddedLength_eq]
    omega
  rw [bufByte, hpos, List.getD_eq_getElem?_getD, padMessage_getElem?_lengthField msg i hi, Option.getD_some]

/-- Words 14 and 15 of the last block are the two halves of the bit length, the high half first (R27). -/
theorem blockWord_lastBlock (msg : List Byte) (j : Nat) (hj : j < 2) :
    blockWord (padMessage msg) ((msg.length + 8) / 64) (14 + j) =
      (BitVec.ofNat 64 (msg.length * 8)).extractLsb' (32 - 32 * j) 32 := by
  have byte (c : Nat) (hc : c < 4) :
      bufByte (padMessage msg) ((msg.length + 8) / 64 * 64 + 4 * (14 + j) + c) =
        (BitVec.ofNat 64 (msg.length * 8)).extractLsb' (32 - 32 * j + (24 - 8 * c)) 8 := by
    rw [show (msg.length + 8) / 64 * 64 + 4 * (14 + j) + c = (msg.length + 8) / 64 * 64 + 56 + (4 * j + c) by omega,
      bufByte_lastBlock msg _ (by omega), show 56 - 8 * (4 * j + c) = 32 - 32 * j + (24 - 8 * c) by omega]
  rw [← be32_extractLsb' (BitVec.ofNat 64 (msg.length * 8)) (32 - 32 * j)]
  exact congr(be32 $(byte 0 (by decide)) $(byte 1 (by decide)) $(byte 2 (by decide)) $(byte 3 (by decide)))

theorem parseBlock_getElem (buf : List Byte) (i j : Nat) (hj : j < 16) :
    (parseBlock buf i)[j] = blockWord buf i j := by
  simp [parseBlock]

/-- Settles O49: the last block is the one that holds the length field. -/
theorem lastBlockEndsWithTheLength : Obligations.LastBlockEndsWithTheLength := by
  intro msg
  refine ⟨_, parseBlocks_padMessage_getLast? msg, ?_, ?_⟩
  · rw [parseBlock_getElem]
    exact blockWord_lastBlock msg 0 (by decide)
  · rw [parseBlock_getElem]
    exact blockWord_lastBlock msg 1 (by decide)

end Sys2Proof.Machine
end

section
/-! PROOFS. The encoding: decoder and encoder are inverse to each other (R47, R48, R53), no word selects two rows, and
the illegal words are those R49 lists. -/

namespace Sys2Proof

/-! ### Decode of encode -/

theorem encode_selects_own_row (i : Instr) : (rowOf (encode i).1).map (·.mnemonic) = some i.mnemonic := by
  cases i with
  | nop => exact Laws.OwnRow.nop
  | init => exact Laws.OwnRow.init
  | writeM idx value => exact Laws.OwnRow.writeM idx value
  | readM idx => exact Laws.OwnRow.readM idx
  | compress => exact Laws.OwnRow.compress
  | readH idx => exact Laws.OwnRow.readH idx
  | readDig idx => exact Laws.OwnRow.readDig idx
  | readStatus => exact Laws.OwnRow.readStatus
  | clearErr => exact Laws.OwnRow.clearErr

/-- An index put into a pattern is read back from the low bits (R45). -/
theorem pattern_or_mod (p : Word) (k n : Nat) (hp : p.toNat % 2 ^ k = 0) (hn : n < 2 ^ k) (hk : k ≤ 5) :
    (p ||| BitVec.ofNat 32 n).toNat % 2 ^ k = n := by
  rw [pattern_or_toNat p k n hp hn hk, Nat.add_mod, hp, Nat.zero_add, Nat.mod_mod, Nat.mod_eq_of_lt hn]

/-- The operands that the encoder puts into the two words are the ones read from them (R45, R46). -/
theorem build_encode (i : Instr) : build i.mnemonic (encode i).1 (encode i).2 = i := by
  cases i with
  | writeM idx value =>
    exact congrArg (Instr.writeM · value)
      (Fin.ext ((idx4_val _).trans (pattern_or_mod 0x02000000 4 idx rfl idx.isLt (by decide))))
  | readM idx =>
    exact congrArg Instr.readM
      (Fin.ext ((idx4_val _).trans (pattern_or_mod 0x03000000 4 idx rfl idx.isLt (by decide))))
  | readH idx =>
    exact congrArg Instr.readH
      (Fin.ext ((idx3_val _).trans (pattern_or_mod 0x05000000 3 idx rfl idx.isLt (by decide))))
  | readDig idx =>
    exact congrArg Instr.readDig
      (Fin.ext ((idx5_val _).trans (pattern_or_mod 0x06000000 5 idx rfl idx.isLt (by decide))))
  | nop | init | compress | readStatus | clearErr => rfl

theorem decode_encode (i : Instr) : decode (encode i).1 (encode i).2 = some i := by
  obtain ⟨r, hrow, hm⟩ := Option.map_eq_some_iff.mp (encode_selects_own_row i)
  rw [decode, hrow, Option.map_some, hm, build_encode]

/-- Settles O2: the encoded word selects the command's own row, and the row's fields hold the operands. -/
theorem decodeOfEncodeIsTheCommand : Obligations.DecodeOfEncodeIsTheCommand := decode_encode

/-! ### Encode of decode -/

/-- A word is the pattern of its high bits with its low `k` bits put in. -/
theorem pattern_or_lowBits {p w : Word} {k n : Nat} (hn : n = w.toNat % 2 ^ k) (hk : k ≤ 5)
    (h : w.toNat / 2 ^ k * 2 ^ k = p.toNat) : p ||| BitVec.ofNat 32 n = w := by
  subst hn
  apply BitVec.eq_of_toNat_eq
  rw [pattern_or_toNat p k _ (by rw [← h, Nat.mul_mod_left]) (Nat.mod_lt _ (Nat.two_pow_pos k)) hk, ← h]
  exact Nat.div_add_mod' w.toNat (2 ^ k)

theorem selects_of_rowOf {r : OpRow} {cmd : Word} (h : rowOf cmd = some r) :
    r ∈ opcodeMap ∧ r.selects cmd = true :=
  ⟨List.mem_of_find?_eq_some h, List.find?_some (p := fun r : OpRow => r.selects cmd) h⟩

/-- A selected row's pattern is the word's high bits, from where the row's mask begins. -/
theorem pattern_eq_of_selects {r : OpRow} {w : Word} {k : Nat} (hmask : ∀ w : Word, w &&& r.mask = (w >>> k) <<< k)
    (h : r.selects w = true) : w.toNat / 2 ^ k * 2 ^ k = r.pattern.toNat := by
  rw [OpRow.selects, hmask, shiftBack_beq] at h
  exact of_decide_eq_true h

theorem eq_pattern_of_selects {r : OpRow} {w : Word} (hmask : r.mask = 0xFFFFFFFF) (h : r.selects w = true) :
    r.pattern = w := by
  have hp := pattern_eq_of_selects (k := 0) (fun w => hmask ▸ and_mask0 w) h
  exact BitVec.eq_of_toNat_eq (by simpa using hp.symm)

/-- What a row's mask leaves free in a word is the index that the encoder writes back. -/
theorem encode_build_fst {r : OpRow} {cmd : Word} (hrow : rowOf cmd = some r) (wdata : Word) :
    (encode (build r.mnemonic cmd wdata)).1 = cmd := by
  obtain ⟨hr, hsel⟩ := selects_of_rowOf hrow
  simp only [opcodeMap, List.mem_cons, List.not_mem_nil, or_false] at hr
  obtain rfl | rfl | rfl | rfl | rfl | rfl | rfl | rfl | rfl := hr
  · exact eq_pattern_of_selects rfl hsel
  · exact eq_pattern_of_selects rfl hsel
  · exact pattern_or_lowBits (k := 4) (idx4_val cmd) (by decide) (pattern_eq_of_selects and_mask4 hsel)
  · exact pattern_or_lowBits (k := 4) (idx4_val cmd) (by decide) (pattern_eq_of_selects and_mask4 hsel)
  · exact eq_pattern_of_selects rfl hsel
  · exact pattern_or_lowBits (k := 3) (idx3_val cmd) (by decide) (pattern_eq_of_selects and_mask3 hsel)
  · exact pattern_or_lowBits (k := 5) (idx5_val cmd) (by decide) (pattern_eq_of_selects and_mask5 hsel)
  · exact eq_pattern_of_selects rfl hsel
  · exact eq_pattern_of_selects rfl hsel

theorem encode_build_snd (m : Mnemonic) (cmd wdata : Word) :
    (encode (build m cmd wdata)).2 = if m = .writeM then wdata else 0 := by
  cases m <;> rfl

theorem build_mnemonic (m : Mnemonic) (cmd wdata : Word) : (build m cmd wdata).mnemonic = m := by
  cases m <;> rfl

/-- Settles O3: the decoded command is built from the row that the word selects. -/
theorem encodeOfDecodedWordIsTheWord : Obligations.EncodeOfDecodedWordIsTheWord := by
  intro cmd wdata i h
  obtain ⟨r, hrow, rfl⟩ := Option.map_eq_some_iff.mp h
  rw [build_mnemonic]
  exact ⟨encode_build_fst hrow wdata, encode_build_snd r.mnemonic cmd wdata⟩

/-! ### Rows -/

/-- Every mask keeps the whole OPC field, so a selected row has the word's opcode (R44, R47). -/
theorem opcField_of_selects {r : OpRow} {w : Word} (hr : r ∈ opcodeMap) (h : r.selects w = true) :
    opcField r.pattern = opcField w := by
  have hmask : ∀ r ∈ opcodeMap, opcField r.mask = BitVec.allOnes 8 := by decide
  have hpattern : w &&& r.mask = r.pattern := by simpa [OpRow.selects] using h
  calc opcField r.pattern = opcField w &&& opcField r.mask := by
        rw [← hpattern]; exact BitVec.extractLsb'_and
    _ = opcField w := by rw [hmask r hr, BitVec.and_allOnes]

/-- Settles O5: both rows have the word's opcode, and no opcode stands in two rows. -/
theorem wordSelectsAtMostOneRow : Obligations.WordSelectsAtMostOneRow := by
  intro w r q hr hq hrw hqw
  have opcode_unique : ∀ r ∈ opcodeMap, ∀ q ∈ opcodeMap, opcField r.pattern = opcField q.pattern → r = q := by
    decide
  exact opcode_unique r hr q hq ((opcField_of_selects hr hrw).trans (opcField_of_selects hq hqw).symm)

/-! ### Illegal words -/

theorem cmd_toNat_eq_fields (cmd : Word) :
    cmd.toNat = (opcField cmd).toNat * 2 ^ 24 + (rsvField cmd).toNat * 2 ^ 8 + (idxField cmd).toNat := by
  rw [opcField_toNat, rsvField_toNat, idxField_toNat]
  have := cmd.isLt
  omega

theorem ite_some_eq_none_iff {α : Type} {c : Prop} [Decidable c] {a : α} {o : Option α} :
    (if c then some a else o) = none ↔ ¬ c ∧ o = none := by
  split <;> simp [*]

/-- The illegal words in numbers (R49). -/
theorem decode_eq_none_iff (cmd wdata : Word) : decode cmd wdata = none ↔
    (9 ≤ (opcField cmd).toNat ∨ (rsvField cmd).toNat ≠ 0 ∨
      (((opcField cmd).toNat = 0 ∨ (opcField cmd).toNat = 1 ∨ (opcField cmd).toNat = 4 ∨
        (opcField cmd).toNat = 7 ∨ (opcField cmd).toNat = 8) ∧ (idxField cmd).toNat ≠ 0) ∨
      (((opcField cmd).toNat = 2 ∨ (opcField cmd).toNat = 3) ∧ 2 ^ 4 ≤ (idxField cmd).toNat) ∨
      ((opcField cmd).toNat = 5 ∧ 2 ^ 3 ≤ (idxField cmd).toNat) ∨
      ((opcField cmd).toNat = 6 ∧ 2 ^ 5 ≤ (idxField cmd).toNat)) := by
  have hcmd := cmd_toNat_eq_fields cmd
  have hrsv := (rsvField cmd).isLt
  have hidx := (idxField cmd).isLt
  simp only [decode_eq, ite_some_eq_none_iff, and_true]
  constructor
  · intro h; omega
  · intro h; omega

theorem ne_zero_iff_toNat {n : Nat} (x : BitVec n) : x ≠ 0 ↔ x.toNat ≠ 0 := by
  rw [Ne, ← BitVec.toNat_inj]
  simp

/-- Some bit from `k` up is set exactly if the number is `2 ^ k` or more. -/
theorem highBits_ne_zero_iff {n : Nat} (x : BitVec n) (k l : Nat) (hn : n ≤ k + l) :
    x.extractLsb' k l ≠ 0 ↔ 2 ^ k ≤ x.toNat := by
  have hquot : x.toNat / 2 ^ k < 2 ^ l := by
    rw [Nat.div_lt_iff_lt_mul (Nat.two_pow_pos k), ← pow_add, Nat.add_comm l k]
    exact x.isLt.trans_le (Nat.pow_le_pow_right (by decide) hn)
  rw [ne_zero_iff_toNat, BitVec.extractLsb'_toNat, Nat.shiftRight_eq_div_pow, Nat.mod_eq_of_lt hquot]
  simp

/-- Settles O4: the listed words are the illegal ones in numbers, and no other rejection comes first. -/
theorem illegalWordsAreTheListedOnes : Obligations.IllegalWordsAreTheListedOnes := by
  intro cmd wdata
  refine ⟨?_, fun h s => Machine.takeTurn_host_illegal cmd wdata s h⟩
  rw [ne_zero_iff_toNat (rsvField cmd), ne_zero_iff_toNat (idxField cmd),
    highBits_ne_zero_iff _ 4 4 le_rfl, highBits_ne_zero_iff _ 3 5 le_rfl, highBits_ne_zero_iff _ 5 3 le_rfl]
  exact decode_eq_none_iff cmd wdata

/-! ### The words of the test vectors -/

/-- Settles O1: each word is evaluated (95_test_vectors.md §2.6). -/
theorem decoderOnTheSpecsWords : Obligations.DecoderOnTheSpecsWords := by
  intro wdata
  refine ⟨?_, ?_, ?_, ?_, ?_, ?_, ?_, ?_, ?_, ?_, ?_, ?_, ?_, ?_, ?_, ?_, ?_, ?_, ?_, ?_, ?_⟩ <;> rfl

end Sys2Proof
end

section
/-! PROOFS. Transactions: what the placed instruction does (R52, R71), what each response code says (R50), and where
read data comes from (R51). -/

namespace Sys2Proof.Machine

/-! ### The placed instruction -/

/-- Settles O7: the placed transaction is the first listed turn, and its word is legal. -/
theorem stepRunsThePlacedInstruction : Obligations.StepRunsThePlacedInstruction := by
  intro s nbits w i hdecode
  rw [step_of_turns (s.withFetchWord nbits w) _ s.turns rfl]
  exact takeTurn_host_legal _ _ i s hdecode

/-! ### Responses -/

/-- All a transaction can do (R71, R108). -/
theorem transact_cases (cmd wdata : Word) (s : State) :
    (decode cmd wdata = none ∧ transact cmd wdata s = .next (rejectIllegal s)) ∨
      ∃ i, decode cmd wdata = some i ∧
        ((s.busy = true ∧ acceptedWhileBusy i = false ∧ transact cmd wdata s = .next (rejectBusy s)) ∨
          ((s.busy = true → acceptedWhileBusy i = true) ∧ transact cmd wdata s = .next (performed i s))) := by
  cases hd : decode cmd wdata with
  | none => exact .inl ⟨rfl, takeTurn_host_illegal cmd wdata s hd⟩
  | some i =>
    have hexec : transact cmd wdata s = exec i s := takeTurn_host_legal cmd wdata i s hd
    obtain ⟨hb, ha, -⟩ | ⟨ha, -⟩ := exec_cases (exec_eq i s)
    · exact .inr ⟨i, rfl, .inl ⟨hb, ha, hexec.trans (exec_busy i s hb ha)⟩⟩
    · exact .inr ⟨i, rfl, .inr ⟨ha, hexec.trans (exec_accepted i s ha)⟩⟩

/-- What a command reads: the word it returns when it is accepted (R51). -/
def readResult (i : Instr) (s : State) : Word :=
  match i with
  | .readM idx => getM idx s
  | .readH idx => getH idx s
  | .readDig idx => (digestByte idx s).setWidth 32
  | .readStatus => statusWord s
  | .nop | .init | .writeM _ _ | .compress | .clearErr => 0

theorem performed_reply (i : Instr) (s : State) : (performed i s).reply = some ⟨.ok, readResult i s⟩ := by
  cases i <;> rfl

/-- Settles O9: an illegal word, a command that BUSY rejects, a command that is performed. -/
theorem responsesMeanWhatTheTableSays : Obligations.ResponsesMeanWhatTheTableSays := by
  intro cmd wdata s
  obtain ⟨hd, h⟩ | ⟨i, hd, ⟨hb, ha, h⟩ | ⟨ha, h⟩⟩ := transact_cases cmd wdata s
  · exact ⟨_, ⟨.illegal, 0⟩, h, rfl, nofun, fun _ => ⟨hd, rfl⟩, nofun, nofun⟩
  · exact ⟨_, ⟨.busy, 0⟩, h, rfl, nofun, nofun, fun _ => ⟨⟨i, hd, ha⟩, hb, rfl⟩, nofun⟩
  · exact ⟨_, ⟨.ok, readResult i s⟩, h, performed_reply i s, fun _ => ⟨i, hd, ha, exec_accepted i s ha⟩,
      nofun, nofun, nofun⟩

/-! ### Read data -/

/-- STATUS as a number (R17). -/
theorem statusWord_eq (s : State) :
    statusWord s = BitVec.ofNat 32 (4 * s.errBusy.toNat + 2 * s.errIllegal.toNat + s.busy.toNat) := by
  unfold statusWord
  cases s.errBusy <;> cases s.errIllegal <;> cases s.busy <;> rfl

/-- READ_DIG returns a byte of the serialized H (R28, R82). -/
theorem readDig_serialize (idx : Fin 32) (s : State) :
    (serialize s.H)[idx.val]? = some ((readResult (.readDig idx) s).setWidth 8) ∧
      (readResult (.readDig idx) s).toNat < 256 := by
  constructor
  · rw [serialize_getElem? s.H idx idx.isLt, readResult, BitVec.setWidth_setWidth_of_le _ (by decide),
      BitVec.setWidth_eq]
    rfl
  · have := (digestByte idx s).isLt
    rw [readResult, BitVec.toNat_setWidth]
    omega

theorem readResult_eq_zero {i : Instr} (s : State) (h : i.mnemonic ≠ .readM ∧ i.mnemonic ≠ .readH ∧
    i.mnemonic ≠ .readDig ∧ i.mnemonic ≠ .readStatus) : readResult i s = 0 := by
  cases i with
  | readM | readH | readDig | readStatus => simp [Instr.mnemonic] at h
  | nop | init | writeM | compress | clearErr => rfl

/-- Settles O11: both rejections return 0, and a performed command returns what it reads. -/
theorem readDataOnlyFromAcceptedReads : Obligations.ReadDataOnlyFromAcceptedReads := by
  intro cmd wdata s
  obtain ⟨-, h⟩ | ⟨i, hd, ⟨-, -, h⟩ | ⟨-, h⟩⟩ := transact_cases cmd wdata s
  · exact ⟨_, ⟨.illegal, 0⟩, h, rfl, nofun, fun _ => rfl⟩
  · exact ⟨_, ⟨.busy, 0⟩, h, rfl, nofun, fun _ => rfl⟩
  · have decoded {j : Instr} (hj : decode cmd wdata = some j) : i = j := Option.some.inj (hd.symm.trans hj)
    refine ⟨_, ⟨.ok, readResult i s⟩, h, performed_reply i s,
      fun _ => ⟨fun idx hj => ?_, fun idx hj => ?_, fun idx hj => ?_, fun hj => ?_⟩, fun hother => ?_⟩
    · rw [decoded hj]; rfl
    · rw [decoded hj]; rfl
    · rw [decoded hj]; exact readDig_serialize idx s
    · rw [decoded hj]; exact statusWord_eq s
    · exact readResult_eq_zero s (hother.resolve_left (· rfl) i hd)

end Sys2Proof.Machine
end

section
/-! PROOFS. The assembler: what a line decodes to and which lines are refused (R53), and "compute digest" as a host
program (R54, R97). -/

namespace Sys2Proof.Machine

/-! ### Lines -/

theorem assembleLine_wellFormed {l : Line} (h : l.wellFormed = true) : assembleLine l = some (lineWords l) :=
  if_pos h

theorem assembleLine_refused {l : Line} (h : l.wellFormed = false) : assembleLine l = none := by
  simp [assembleLine, h]

theorem wellFormed_writeM_iff (idx v : Nat) : (Line.writeM idx v).wellFormed = true ↔ idx < 16 ∧ v < 2 ^ 32 := by
  rw [Line.wellFormed, valueFits, Bool.and_eq_true, decide_eq_true_iff, decide_eq_true_iff]

/-- A line with the words that the encoder writes for `i` assembles to words that decode to `i`. -/
theorem assembled_line_decodes {l : Line} {i : Instr} (hl : l.wellFormed = true) (hwords : lineWords l = encode i) :
    ∃ w, assembleLine l = some w ∧ decode w.1 w.2 = some i :=
  ⟨encode i, (assembleLine_wellFormed hl).trans (congrArg some hwords), decode_encode i⟩

/-- Settles O50: in its ranges a line has the words of its command, and out of them it is not well-formed. -/
theorem assembledLinesDecodeToTheirCommand : Obligations.AssembledLinesDecodeToTheirCommand := by
  refine ⟨fun idx v h hv => ?_, fun idx h => ?_, fun idx h => ?_, fun idx h => ?_, fun idx v h => ?_, fun idx =>
    ⟨fun h => ?_, fun h => ?_, fun h => ?_⟩⟩
  · exact assembled_line_decodes ((wellFormed_writeM_iff idx v).mpr ⟨h, hv⟩) rfl
  · exact assembled_line_decodes (decide_eq_true h) rfl
  · exact assembled_line_decodes (decide_eq_true h) rfl
  · exact assembled_line_decodes (decide_eq_true h) rfl
  · exact assembleLine_refused (Bool.eq_false_iff.mpr fun hw => by
      have := (wellFormed_writeM_iff idx v).mp hw
      omega)
  · exact assembleLine_refused (decide_eq_false h.not_gt)
  · exact assembleLine_refused (decide_eq_false h.not_gt)
  · exact assembleLine_refused (decide_eq_false h.not_gt)

/-! ### Programs -/

theorem assembleProgram_cons {s : Stmt} {rest : List Stmt} {ops more : List HostOp}
    (hs : assembleStmt s = some ops) (hrest : assembleProgram rest = some more) :
    assembleProgram (s :: rest) = some (ops ++ more) := by
  simp [assembleProgram, hs, hrest]

/-- One HASH_BLOCK for each block, in order, before the rest of a program. -/
theorem assembleProgram_hashBlocks (bs : List (Vector Word 16)) {rest : List Stmt} {more : List HostOp}
    (hrest : assembleProgram rest = some more) :
    assembleProgram (bs.map (fun w => Stmt.pseudo (.hashBlock w)) ++ rest) =
      some ((bs.flatMap fun w => expandPseudo (.hashBlock w)) ++ more) := by
  induction bs with
  | nil => exact hrest
  | cons w bs ih =>
    rw [List.flatMap_cons, List.append_assoc]
    exact assembleProgram_cons rfl ih

/-- Settles O51: statement after statement, the blocks by induction. -/
theorem computeDigestIsAHostProgram : Obligations.ComputeDigestIsAHostProgram := fun bs =>
  assembleProgram_cons (s := .line .init) (ops := [sendInstr .init]) rfl
    (assembleProgram_hashBlocks bs (assembleProgram_cons (s := .pseudo .readDigest) (rest := []) rfl rfl))

end Sys2Proof.Machine
end

section
/-! PROOFS. Every host program ends under fairness (R54, R89, R122): a number falls with every engine step of a running
compression and with every host transaction on an idle core, and never rises. -/

namespace Sys2Proof.Machine

/-! ### Engine steps left -/

/-- The engine steps that a running compression still needs; none with BUSY = 0 (R88). -/
def stepsLeft (s : State) : Nat := if s.busy then 65 - s.t.val else 0

theorem stepsLeft_le (s : State) : stepsLeft s ≤ 65 := by
  unfold stepsLeft
  split <;> omega

theorem stepsLeft_eq_zero_iff (s : State) : stepsLeft s = 0 ↔ s.busy = false := by
  have := s.t.isLt
  cases hb : s.busy <;> simp [stepsLeft, hb]
  omega

theorem stepsLeft_engineStep (s : State) : stepsLeft (engineStep s) = stepsLeft s - 1 := by
  obtain ⟨hb, e⟩ | ⟨ht, hb, e⟩ | ⟨hb, ht, e⟩ := engineStep_cases s
  · simp [stepsLeft, e, hb]
  · simp [stepsLeft, e, hb]; omega
  · simp [stepsLeft, e, hb, ht]

theorem stepsLeft_takeReset (s : State) : stepsLeft (takeReset s) = 0 := rfl

/-! ### Steps of host and core -/

theorem systemStep_engine (y : System) : systemStep .engine y = .next ⟨engineStep y.core, y.agent⟩ := rfl

theorem systemStep_reset (y : System) : systemStep .reset y = .next ⟨takeReset y.core, y.agent⟩ := rfl

section
variable {y z : System} {rest : List HostOp}

theorem systemStep_host_done (hcode : y.agent.code = []) (h : systemStep .host y = .next z) : z = y := by
  obtain ⟨-, hz⟩ | ⟨turn, core, hturn, -, -⟩ := systemStep_cases h
  · exact hz
  · simp [actorTurn, agentTurn, hcode] at hturn

/-- A transaction of the program is issued once, whatever the reply (R98). -/
theorem systemStep_host_send {cmd wdata : Word} (hcode : y.agent.code = .send cmd wdata :: rest)
    (h : systemStep .host y = .next z) : z.agent.code = rest := by
  obtain ⟨hturn, -⟩ | ⟨turn, core, hturn, hcore, rfl⟩ := systemStep_cases h <;>
    simp [actorTurn, agentTurn, hcode] at hturn
  subst hturn
  obtain ⟨r, hr⟩ := host_turn_replies hcore
  simp [afterTurn, hr, agentObserve, hcode]

/-- WAIT reads STATUS and goes on if BUSY = 0 (R54). -/
theorem systemStep_host_poll (hcode : y.agent.code = .poll :: rest) (h : systemStep .host y = .next z) :
    z = ⟨answer (statusWord y.core) y.core, if y.core.busy then y.agent else ⟨rest, y.agent.log⟩⟩ := by
  obtain ⟨hturn, -⟩ | ⟨turn, core, hturn, hcore, rfl⟩ := systemStep_cases h <;>
    simp [actorTurn, agentTurn, hcode] at hturn
  subst hturn
  rw [takeTurn_host_legal _ _ .readStatus _ (decode_encode .readStatus), exec_accepted _ _ fun _ => rfl] at hcore
  obtain rfl : performed .readStatus y.core = core := by injection hcore
  simp only [performed, afterTurn, answer_reply, agentObserve, hcode, statusWord_bit_zero]

end

/-! ### The potential -/

/-- The engine steps that the running compression needs, and for each operation left more than a whole compression
needs. -/
def potential (y : System) : Nat := 66 * y.agent.code.length + stepsLeft y.core

theorem busy_eq_false_iff_potential (y : System) : y.core.busy = false ↔ potential y % 66 = 0 := by
  have := stepsLeft_le y.core
  rw [← stepsLeft_eq_zero_iff, potential]
  omega

section
variable {y z : System}

theorem potential_engine (h : systemStep .engine y = .next z) :
    potential z = 66 * y.agent.code.length + (stepsLeft y.core - 1) := by
  rw [systemStep_engine] at h
  injection h with h
  rw [← h, potential, stepsLeft_engineStep]

/-- A host transaction takes an operation off, which outweighs a compression it may start; but WAIT while BUSY = 1
changes neither. -/
theorem potential_host (hcode : y.agent.code ≠ []) (h : systemStep .host y = .next z) :
    potential z < potential y ∨ (y.core.busy = true ∧ potential z = potential y) := by
  obtain ⟨op, rest, hop⟩ := List.exists_cons_of_ne_nil hcode
  have hlength : y.agent.code.length = rest.length + 1 := by rw [hop, List.length_cons]
  have hleft := stepsLeft_le z.core
  unfold potential
  cases op with
  | send cmd wdata =>
    rw [systemStep_host_send hop h]
    omega
  | poll =>
    obtain rfl := systemStep_host_poll hop h
    have hstatus : stepsLeft (answer (statusWord y.core) y.core) = stepsLeft y.core := rfl
    cases hb : y.core.busy with
    | true => simp [hstatus]
    | false =>
      simp only [hstatus, Bool.false_eq_true, if_false]
      omega

theorem potential_le {who : Actor} (h : systemStep who y = .next z) : potential z ≤ potential y := by
  cases who with
  | host =>
    by_cases hcode : y.agent.code = []
    · rw [systemStep_host_done hcode h]
    · have := potential_host hcode h
      omega
  | engine =>
    rw [potential_engine h, potential]
    omega
  | reset =>
    rw [systemStep_reset] at h
    injection h with h
    rw [← h, potential, stepsLeft_takeReset]
    exact Nat.le_add_right _ _

theorem potential_lt_of_engine (hb : y.core.busy = true) (h : systemStep .engine y = .next z) :
    potential z < potential y := by
  have hleft : stepsLeft y.core ≠ 0 := by simp [stepsLeft_eq_zero_iff, hb]
  rw [potential_engine h, potential]
  omega

theorem potential_lt_of_host (hb : y.core.busy = false) (hcode : y.agent.code ≠ [])
    (h : systemStep .host y = .next z) : potential z < potential y := by
  obtain hlt | ⟨hbusy, -⟩ := potential_host hcode h
  · exact hlt
  · simp [hb] at hbusy

end

/-! ### Executions -/

/-- The potential of an execution comes to rest. -/
theorem potential_settles {σ : Nat → Actor} {y : Nat → System} (h : IsSystemExecution σ y) :
    ∃ n, ∀ m, n ≤ m → potential (y m) = potential (y n) := by
  have hanti : Antitone fun n => potential (y n) := antitone_nat_of_succ_le fun n => potential_le (h n)
  obtain ⟨n, hmin⟩ : ∃ n, ∀ m, potential (y n) ≤ potential (y m) :=
    ⟨Function.argmin fun n => potential (y n), fun m => Function.argmin_le (fun n => potential (y n)) m⟩
  exact ⟨n, fun m hm => (hanti hm).antisymm (hmin m)⟩

/-- Settles O53: where the potential rests BUSY stays as it is, and with operations left either the engine (BUSY = 1)
or the host (BUSY = 0) would still lower it. -/
theorem everyHostProgramEnds : Obligations.EveryHostProgramEnds := by
  intro σ y hexec hfair hproceeds
  by_contra hends
  have hcode (n : Nat) : (y n).agent.code ≠ [] := fun h => hends ⟨n, h⟩
  obtain ⟨n, hrest⟩ := potential_settles hexec
  have no_drop (m : Nat) (hm : n ≤ m) : ¬ potential (y (m + 1)) < potential (y m) := by
    rw [hrest m hm, hrest (m + 1) (by omega)]
    exact lt_irrefl _
  have hbusy (m : Nat) (hm : n ≤ m) : (y m).core.busy = false ↔ (y n).core.busy = false := by
    rw [busy_eq_false_iff_potential, busy_eq_false_iff_potential, hrest m hm]
  cases hb : (y n).core.busy with
  | true =>
    have stays_busy (m : Nat) (hm : n ≤ m) : (y m).core.busy = true := by simpa [hb] using hbusy m hm
    obtain ⟨m, hm, hactor⟩ := hfair n stays_busy
    exact no_drop m hm (potential_lt_of_engine (stays_busy m hm) (hactor ▸ hexec m))
  | false =>
    obtain ⟨m, hm, hactor⟩ := hproceeds n (hcode n)
    exact no_drop m hm (potential_lt_of_host ((hbusy m hm).mpr hb) (hcode m) (hactor ▸ hexec m))

end Sys2Proof.Machine
end

section
/-! PROOFS. The datapath's functions bit by bit (R56 to R63), its constants (R69, R70), and the two steps of the engine
written out (R86, R87). -/

namespace Sys2Proof.Machine

/-! ### Rotation and shift -/

theorem rotr_eq_rotateRight (x : Word) {n : Nat} (hn : n < 32) : rotr x n = x.rotateRight n := by
  rw [rotr, BitVec.rotateRight_def, Nat.mod_eq_of_lt hn]

/-- Bit i of a rotation (R56). -/
theorem getLsbD_rotr (x : Word) {n i : Nat} (hn : n < 32) (hi : i < 32) :
    (rotr x n).getLsbD i = x.getLsbD ((i + n) % 32) := by
  rw [rotr_eq_rotateRight x hn, BitVec.getLsbD_rotateRight, Nat.mod_eq_of_lt hn]
  by_cases h : i < 32 - n
  · rw [decide_eq_true h, cond_true, Nat.mod_eq_of_lt (by omega), Nat.add_comm]
  · rw [decide_eq_false h, cond_false, decide_eq_true hi, Bool.true_and,
      show (i + n) % 32 = i - (32 - n) by omega]

/-- Bit i of a logical shift (R57). -/
theorem getLsbD_shr (x : Word) (n i : Nat) :
    (shr x n).getLsbD i = (decide (i + n < 32) && x.getLsbD (i + n)) := by
  rw [shr, BitVec.getLsbD_ushiftRight, Nat.add_comm]
  by_cases h : i + n < 32
  · rw [decide_eq_true h, Bool.true_and]
  · rw [decide_eq_false h, Bool.false_and, BitVec.getLsbD_of_ge x _ (by omega)]

/-- A word with all its bits equal is its own rotation. -/
theorem rotr_of_uniform {x : Word} {b : Bool} (hx : ∀ i, i < 32 → x.getLsbD i = b) {n : Nat} (hn : n < 32) :
    rotr x n = x := by
  refine BitVec.eq_of_getLsbD_eq fun i hi => ?_
  rw [getLsbD_rotr x hn hi, hx i hi, hx _ (Nat.mod_lt _ (by decide))]

/-- Settles O25: bit by bit, and a word of ones or of zeros has all its bits equal. -/
theorem rotationIsOverThirtyTwoBits : Obligations.RotationIsOverThirtyTwoBits := by
  refine ⟨fun x n i _ hn hi => getLsbD_rotr x (by omega) hi, by decide, by decide, fun n _ hn => ⟨?_, ?_⟩⟩
  · exact rotr_of_uniform (b := true) (by decide) (by omega)
  · exact rotr_of_uniform (b := false) (by decide) (by omega)

/-- Settles O26: bit by bit, with a bit past bit 31 read as 0. -/
theorem shiftFillsWithZeros : Obligations.ShiftFillsWithZeros := by
  refine ⟨fun x n i _ _ _ => ?_, by decide, by decide, by decide⟩
  rw [getLsbD_shr]
  split <;> simp [*]

/-! ### The functions of the schedule and the round -/

/-- Settles O27: bit by bit the rotations, the shift and the exclusive or. -/
theorem sigmaFunctionsBitByBit : Obligations.SigmaFunctionsBitByBit := by
  intro x i hi
  refine ⟨?_, ?_, ?_, ?_⟩
  · simp only [smallSigma0, BitVec.getLsbD_xor, getLsbD_rotr, getLsbD_shr, hi, Nat.reduceLT]
  · simp only [smallSigma1, BitVec.getLsbD_xor, getLsbD_rotr, getLsbD_shr, hi, Nat.reduceLT]
  · simp only [bigSigma0, BitVec.getLsbD_xor, getLsbD_rotr, hi, Nat.reduceLT]
  · simp only [bigSigma1, BitVec.getLsbD_xor, getLsbD_rotr, hi, Nat.reduceLT]

/-- Bit i of Ch (R62). -/
theorem getLsbD_ch (x y z : Word) {i : Nat} (hi : i < 32) :
    (ch x y z).getLsbD i = if x.getLsbD i then y.getLsbD i else z.getLsbD i := by
  simp only [ch, BitVec.getLsbD_xor, BitVec.getLsbD_and, BitVec.getLsbD_not, hi]
  cases x.getLsbD i <;> simp

/-- Bit i of Maj (R63). -/
theorem getLsbD_maj (x y z : Word) (i : Nat) : (maj x y z).getLsbD i =
    decide (2 ≤ (x.getLsbD i).toNat + (y.getLsbD i).toNat + (z.getLsbD i).toNat) := by
  simp only [maj, BitVec.getLsbD_xor, BitVec.getLsbD_and]
  cases x.getLsbD i <;> cases y.getLsbD i <;> cases z.getLsbD i <;> rfl

/-- Settles O28: bit by bit. -/
theorem chooseAndMajorityBitByBit : Obligations.ChooseAndMajorityBitByBit :=
  fun x y z i hi => ⟨getLsbD_ch x y z hi, getLsbD_maj x y z i⟩

/-! ### Constants -/

/-- The primes below 312, in order. -/
def firstPrimes : Vector Nat 64 := #v[
  2, 3, 5, 7, 11, 13, 17, 19, 23, 29, 31, 37, 41, 43, 47, 53, 59, 61, 67, 71, 73, 79, 83, 89, 97, 101, 103, 107, 109,
  113, 127, 131, 137, 139, 149, 151, 157, 163, 167, 173, 179, 181, 191, 193, 197, 199, 211, 223, 227, 229, 233, 239,
  241, 251, 257, 263, 269, 271, 277, 281, 283, 293, 307, 311]

theorem primesBelow_312 : primesBelow 312 = firstPrimes.toList := by decide +kernel

theorem eq_firstPrimes {i p : Nat} (hi : i < 64) (h : (primesBelow 312)[i]? = some p) : firstPrimes[i] = p := by
  simpa [primesBelow_312, hi] using h

/-- `n` is the floor of the k-th root of `p` times 2^32. -/
abbrev IsScaledRoot (k p n : Nat) : Prop := n ^ k ≤ p * 2 ^ (32 * k) ∧ p * 2 ^ (32 * k) < (n + 1) ^ k

/-- A fraction is that of a root if some whole part `q` makes a root of it. -/
theorem isRootFraction_of_wholePart {k p b : Nat} {w : Word} (h : ∃ q < b, IsScaledRoot k p (q * 2 ^ 32 + w.toNat)) :
    IsRootFraction k p w := by
  obtain ⟨q, -, hle, hlt⟩ := h
  have := w.isLt
  exact ⟨_, hle, hlt, by omega⟩

/-- The cube roots are below 7. -/
theorem ktable_scaledRoot : ∀ i : Fin 64, ∃ q < 7,
    IsScaledRoot 3 firstPrimes[i] (q * 2 ^ 32 + Config.KTABLE[i].toNat) := by decide +kernel

/-- The square roots are below 5. -/
theorem ivtable_scaledRoot : ∀ i : Fin 8, ∃ q < 5,
    IsScaledRoot 2 firstPrimes[i] (q * 2 ^ 32 + Config.IVTABLE[i].toNat) := by decide +kernel

/-- Settles O30: with its whole part before it each constant is checked against the bounds of its root. -/
theorem constantsAreRootsOfPrimes : Obligations.ConstantsAreRootsOfPrimes := by
  refine ⟨by rw [primesBelow_312, Vector.length_toList], fun i hi p hp => ?_, fun i hi p hp => ?_⟩
  · exact eq_firstPrimes hi hp ▸ isRootFraction_of_wholePart (ktable_scaledRoot ⟨i, hi⟩)
  · exact eq_firstPrimes (by omega) hp ▸ isRootFraction_of_wholePart (ivtable_scaledRoot ⟨i, hi⟩)

/-! ### The engine's steps -/

/-- Round t with the additions as sums of words (R65). -/
theorem roundAt_eq (W : Vector Word 64) (v : Vars) {t : Nat} (ht : t < 64) (T1 T2 : Word)
    (hT1 : T1 = v.h + bigSigma1 v.e + ch v.e v.f v.g + Config.KTABLE[t] + W[t])
    (hT2 : T2 = bigSigma0 v.a + maj v.a v.b v.c) :
    roundAt W v t = ⟨T1 + T2, v.a, v.b, v.c, v.d + T1, v.e, v.f, v.g⟩ := by
  subst hT1 hT2
  rw [roundAt, dif_pos ht]
  simp only [roundVars, add32_eq_add]

theorem expandAt_get_high (W : Vector Word 64) {t : Nat} (ht : t < 64) (h16 : 16 ≤ t) :
    (expandAt W t)[t] = smallSigma1 W[t - 2] + W[t - 7] + smallSigma0 W[t - 15] + W[t - 16] := by
  rw [expandAt_get_self W t ⟨h16, ht⟩]
  simp only [schedTerm, add32_eq_add]

theorem expandAt_low (W : Vector Word 64) {t : Nat} (h : t < 16) : expandAt W t = W :=
  dif_neg (by omega)

/-- Settles O31: the schedule entry (R64), then the round (R65). -/
theorem engineRoundStepIsTheRound : Obligations.EngineRoundStepIsTheRound := by
  intro s hb ht
  refine ⟨expandAt s.W s.t.val, _, _, expandAt_get_high s.W ht, fun h => ?_, fun i hi hne => ?_, rfl, rfl, ?_⟩
  · simp only [expandAt_low s.W h]
  · exact expandAt_get_ne s.W s.t.val i hi hne.symm
  · rw [takeTurn_engine, engineStep_round s hb ht, roundStep, roundAt_eq _ _ ht _ _ rfl rfl]

/-- Settles O32: at t = 64 the engine's step is the accumulate step, with its additions as sums of words. -/
theorem engineAccumulatesIntoH : Obligations.EngineAccumulatesIntoH := by
  intro s hb ht
  rw [takeTurn_engine, engineStep_accumulate s hb (by simp [ht]), accumulateStep]
  simp only [acc, add32_eq_add]

end Sys2Proof.Machine
end

section
/-! PROOFS. A running compression: its invariant under every step (R74, R86, R88), its result under every interleaving,
and the engine alone. -/

namespace Sys2Proof.Machine

/-! ### The invariant -/

/-- A command that is accepted while BUSY = 1 writes the sticky bits and the port's outputs alone (R71). -/
theorem performed_acceptedWhileBusy {i : Instr} (ha : acceptedWhileBusy i = true) (s : State) :
    ∃ illegal busy reply,
      performed i s = { s with errIllegal := illegal, errBusy := busy, reply := reply } := by
  cases i with
  | nop | readStatus | clearErr => exact ⟨_, _, _, rfl⟩
  | init | writeM | readM | compress | readH | readDig => cases ha

/-- A performed COMPRESS starts the invariant, and every other performed command leaves BUSY. -/
theorem engineInv_performed {i : Instr} {s : State} (ha : s.busy = true → acceptedWhileBusy i = true)
    (h : EngineInv s) : EngineInv (performed i s) := by
  by_cases hi : i = .compress
  · subst hi
    exact engineInv_accepted s
  · cases hb : s.busy with
    | false => exact engineInv_idle ((blind_performed hi s s).2.trans hb)
    | true =>
      obtain ⟨_, _, _, e⟩ := performed_acceptedWhileBusy (ha hb) s
      rw [e]
      exact h

theorem engineInv_engineStep {s : State} (h : EngineInv s) : EngineInv (engineStep s) := by
  obtain ⟨-, e⟩ | ⟨ht, hb, e⟩ | ⟨-, -, e⟩ := engineStep_cases s
  · rw [e]
    exact h
  · exact e ▸ engineInv_roundStep ht hb h
  · exact e ▸ engineInv_idle rfl

theorem engineInv_takeTurn {turn : Turn} {s t : State} (h : EngineInv s) (hs : takeTurn turn s = .next t) :
    EngineInv t := by
  obtain ⟨_, _, -, -, rfl⟩ | ⟨_, _, _, -, -, -, -, rfl⟩ | ⟨_, _, i, -, -, ha, rfl⟩ | ⟨-, rfl⟩ | ⟨-, rfl⟩ :=
    takeTurn_cases hs
  · exact h
  · exact h
  · exact engineInv_performed ha h
  · exact engineInv_engineStep h
  · exact engineInv_idle rfl

/-- Settles O39: the invariant does not see the listed turns, and every turn keeps it. -/
theorem everyStepKeepsEngineInv : Obligations.EveryStepKeepsEngineInv := by
  intro s t h hs
  cases hturns : s.turns with
  | nil =>
    rw [step_of_no_turns s hturns] at hs
    injection hs with hs
    exact hs ▸ engineInv_engineStep h
  | cons turn rest =>
    rw [step_of_turns s turn rest hturns] at hs
    exact engineInv_takeTurn (engineInv_turns rest h) hs

/-! ### A compression under every interleaving -/

/-- `k` rounds of the compression of the block `M` from `H` are done, and the core is still at it. -/
structure Running (H : Vector Word 8) (M : Vector Word 16) (k : Nat) (s : State) : Prop where
  inv : EngineInv s
  busy : s.busy = true
  hash : s.H = H
  block : s.M = M
  round : s.t.val = k

theorem running_accepted (s : State) : Running s.H s.M 0 (performed .compress s) where
  inv := engineInv_accepted s
  busy := by simp [performed]
  hash := by simp [performed]
  block := by simp [performed]
  round := by simp [performed]

section
variable {H : Vector Word 8} {M : Vector Word 16} {k : Nat} {s t : State}

theorem Running.setTurns (h : Running H M k s) (l : List Turn) : Running H M k { s with turns := l } :=
  ⟨engineInv_turns l h.inv, h.busy, h.hash, h.block, h.round⟩

/-- The port's outputs are no part of a compression. -/
theorem Running.answer (h : Running H M k s) (rdata : Word) : Running H M k (answer rdata s) :=
  ⟨h.inv, h.busy, h.hash, h.block, h.round⟩

/-- While BUSY = 1 no host transaction touches the compression: what is accepted then leaves H, M, t and BUSY. -/
theorem Running.host {cmd wdata : Word} (h : Running H M k s) (hs : takeTurn (.host cmd wdata) s = .next t) :
    Running H M k t := by
  have hinv : EngineInv t := engineInv_takeTurn h.inv hs
  have ⟨_, hb, hH, hM, ht⟩ := h
  obtain ⟨_, _, -, -, rfl⟩ | ⟨_, _, _, -, -, -, -, rfl⟩ | ⟨_, _, i, -, -, ha, rfl⟩ | ⟨e, -⟩ | ⟨e, -⟩ :=
    takeTurn_cases hs
  · exact ⟨hinv, hb, hH, hM, ht⟩
  · exact ⟨hinv, hb, hH, hM, ht⟩
  · obtain ⟨_, _, _, e⟩ := performed_acceptedWhileBusy (ha hb) s
    rw [e] at hinv ⊢
    exact ⟨hinv, hb, hH, hM, ht⟩
  · cases e
  · cases e

theorem Running.engine (h : Running H M k s) (hk : k < 64) : Running H M (k + 1) (engineStep s) := by
  have ht : s.t.val < 64 := h.round ▸ hk
  rw [engineStep_round s h.busy ht]
  exact ⟨engineInv_roundStep ht h.busy h.inv, h.busy, h.hash, h.block, congrArg (· + 1) h.round⟩

/-- One turn but a reset: the rounds done are counted by the engine's turns. -/
theorem Running.turn {turn : Turn} (h : Running H M k s) (hr : turn.isReset = false)
    (hk : k + [turn].countP Turn.isEngine ≤ 64) (hs : takeTurn turn s = .next t) :
    Running H M (k + [turn].countP Turn.isEngine) t := by
  cases turn with
  | host cmd wdata => exact h.host hs
  | engine =>
    rw [takeTurn_engine] at hs
    injection hs with hs
    exact hs ▸ h.engine hk
  | reset => cases hr

/-- The 65th engine step. -/
theorem Running.accumulate (h : Running H M 64 s) :
    engineStep s = { s with H := compress H M, busy := false } := by
  obtain ⟨hinv, hb, rfl, rfl, ht⟩ := h
  have ht' : s.t = 64 := Fin.ext ht
  rw [engineStep_accumulate s hb (by omega), accumulateStep, accumulateStep_compress hb ht' hinv]

/-- A run over listed turns without a reset and with not more engine turns than there are rounds left. -/
theorem Running.run (ts : List Turn) {rest : List Turn} (h : Running H M k s) (hturns : s.turns = ts ++ rest)
    (hr : ∀ x ∈ ts, x.isReset = false) (hk : k + ts.countP Turn.isEngine ≤ 64) :
    ∃ m, runSteps ts.length s = .next m ∧ m.turns = rest ∧ Running H M (k + ts.countP Turn.isEngine) m := by
  induction ts generalizing s k with
  | nil => exact ⟨s, rfl, hturns, h⟩
  | cons turn ts ih =>
    have hcount : (turn :: ts).countP Turn.isEngine = [turn].countP Turn.isEngine + ts.countP Turn.isEngine :=
      List.countP_append (l₁ := [turn])
    rw [hcount, ← Nat.add_assoc] at hk ⊢
    have hstep := step_of_turns s turn (ts ++ rest) hturns
    obtain ⟨t, ht⟩ := takeTurn_next turn { s with turns := ts ++ rest }
    rw [List.length_cons, runSteps_succ _ (hstep.trans ht)]
    exact ih ((h.setTurns _).turn (hr turn List.mem_cons_self) (by omega) ht) (takeTurn_turns ht)
      (fun x hx => hr x (List.mem_cons_of_mem _ hx)) hk

end

/-- Settles O40: 64 rounds among the listed turns, then the accumulate step. -/
theorem everyInterleavingCompresses : Obligations.EveryInterleavingCompresses := by
  intro s c ts rest hb hc hr hcount
  rw [exec_idle _ s hb] at hc
  injection hc with hc
  have hstart := (hc ▸ running_accepted s).setTurns (ts ++ Turn.engine :: rest)
  obtain ⟨m, hrun, hturns, hm⟩ := hstart.run ts rfl hr (by omega)
  rw [hcount, Nat.zero_add] at hm
  have hlast := (hm.setTurns rest).accumulate
  refine ⟨m, _, hrun, hm.busy, hm.hash, hm.block, Fin.ext hm.round,
    (step_of_turns m .engine rest hturns).trans (congrArg Host.Outcome.next hlast), rfl, rfl, hm.block, rfl⟩

/-! ### The engine alone -/

/-- With the invariant, 64 rounds have written the whole schedule, and a .. h are those of `Compress`. -/
theorem hidden_of_engineInv {s : State} (h : EngineInv s) (hb : s.busy = true) (ht : s.t = 64) :
    s.W = schedule s.M ∧ s.vars = rounds (schedule s.M) 64 (seed s.H) := by
  obtain ⟨hW, hvars⟩ := h hb
  constructor
  · ext1 i hi
    exact hW ⟨i, hi⟩ (by simp [ht, hi])
  · rw [hvars, ht]
    rfl

/-- The rounds that are left write hidden state alone. -/
theorem runSteps_rounds {s : State} (n : Nat) (hn : s.t.val + n = 64) (h : EngineInv s) (hb : s.busy = true)
    (hturns : s.turns = []) :
    ∃ x : State, runSteps n s = .next (s.withHidden x) ∧ EngineInv (s.withHidden x) ∧ x.t = 64 := by
  induction n generalizing s with
  | zero => exact ⟨s, rfl, h, Fin.ext hn⟩
  | succ n ih =>
    have ht : s.t.val < 64 := by omega
    have hstep := (step_of_no_turns s hturns).trans (congrArg Host.Outcome.next (engineStep_round s hb ht))
    rw [runSteps_succ n hstep]
    exact ih (s := roundStep s ht) (by simp only [roundStep_t]; omega) (engineInv_roundStep ht hb h) hb hturns

/-- Settles O41: the rounds that are left, then the accumulate step. -/
theorem engineAloneFinishesTheBlock : Obligations.EngineAloneFinishesTheBlock := by
  intro s h hb hturns
  obtain ⟨x, hrun, hx, ht⟩ := runSteps_rounds (64 - s.t.val) (by omega) h hb hturns
  have hm : Running s.H s.M 64 (s.withHidden x) := ⟨hx, hb, rfl, rfl, by simp [State.withHidden, ht]⟩
  obtain ⟨hW, hvars⟩ : x.W = schedule s.M ∧ x.vars = rounds (schedule s.M) 64 (seed s.H) :=
    hidden_of_engineInv (s := s.withHidden x) hx hb ht
  have hlast := (step_of_no_turns (s.withHidden x) hturns).trans (congrArg Host.Outcome.next hm.accumulate)
  rw [show 65 - s.t.val = 64 - s.t.val + 1 by omega, runSteps_add _ 1 hrun, runSteps_succ 0 hlast, runSteps_zero]
  simp only [State.withHidden, hW, hvars, ht]

end Sys2Proof.Machine
end

section
/-! PROOFS. "compute digest" (R97, R98, R100): rules for what a host program leads to under every interleaving of host
and engine, and the digest by these rules, operation after operation. -/

namespace Sys2Proof.Machine

/-! ### What a host program leads to -/

/-- Under every interleaving of host and engine without reset, a host that has come to its end has `Q`. -/
def EndsIn (Q : System → Prop) (y : System) : Prop :=
  ∀ (who : List Actor) (z : System), (∀ a ∈ who, a ≠ .reset) → systemRun who y = .next z → z.agent.code = [] → Q z

/-- A step of host or engine from `P` stays in `P` until it leads to a system that ends in `Q`. -/
theorem endsIn_of_stays {P Q : System → Prop} (hdone : ∀ y, P y → y.agent.code = [] → Q y)
    (hhost : ∀ y z, P y → systemStep .host y = .next z → P z ∨ EndsIn Q z)
    (hengine : ∀ y, P y → P ⟨engineStep y.core, y.agent⟩ ∨ EndsIn Q ⟨engineStep y.core, y.agent⟩)
    {y : System} (hy : P y) : EndsIn Q y := by
  intro who z hr hrun hend
  induction who generalizing y with
  | nil =>
    injection hrun with hrun
    exact hrun ▸ hdone y hy (hrun ▸ hend)
  | cons a who ih =>
    have hr' : ∀ b ∈ who, b ≠ .reset := fun b hb => hr b (List.mem_cons_of_mem a hb)
    obtain ⟨x, hx⟩ := systemStep_next a y
    rw [systemRun_cons a who hx] at hrun
    have hnext : P x ∨ EndsIn Q x := by
      cases a with
      | host => exact hhost y x hy hx
      | engine =>
        rw [systemStep_engine] at hx
        injection hx with hx
        exact hx ▸ hengine y hy
      | reset => exact absurd rfl (hr .reset List.mem_cons_self)
    obtain hP | hQ := hnext
    · exact ih hP hr' hrun
    · exact hQ who z hr' hrun hend

section
variable {Q : System → Prop} {core : State} {rest : List HostOp} {log : List Reply}

/-- With BUSY = 0 the engine has no step, so the host's next transaction decides. -/
theorem endsIn_of_idle {y : System} (hb : y.core.busy = false) (hdone : y.agent.code = [] → Q y)
    (hhost : ∀ z, systemStep .host y = .next z → z = y ∨ EndsIn Q z) : EndsIn Q y := by
  refine endsIn_of_stays (P := (· = y)) ?_ ?_ ?_ rfl
  · rintro _ rfl
    exact hdone
  · rintro _ z rfl
    exact hhost z
  · rintro _ rfl
    exact .inl (by rw [engineStep_idle _ hb])

theorem endsIn_done (hb : core.busy = false) (hQ : Q ⟨core, ⟨[], log⟩⟩) : EndsIn Q ⟨core, ⟨[], log⟩⟩ :=
  endsIn_of_idle hb (fun _ => hQ) fun _ h => .inl (systemStep_host_done rfl h)

/-! ### One operation -/

/-- A transaction that an idle core performs is answered OK with what the command reads (R50, R51). -/
theorem systemStep_host_performed (i : Instr) (hb : core.busy = false) :
    systemStep .host ⟨core, ⟨sendInstr i :: rest, log⟩⟩ =
      .next ⟨performed i core, ⟨rest, log ++ [⟨.ok, readResult i core⟩]⟩⟩ := by
  have hturn : takeTurn (.host (encode i).1 (encode i).2) core = .next (performed i core) :=
    (takeTurn_host_legal _ _ i core (decode_encode i)).trans (exec_idle i core hb)
  simp [systemStep, actorTurn, agentTurn, sendInstr, hturn, afterTurn, performed_reply, agentObserve]

theorem endsIn_send {i : Instr} (hb : core.busy = false)
    (h : EndsIn Q ⟨performed i core, ⟨rest, log ++ [⟨.ok, readResult i core⟩]⟩⟩) :
    EndsIn Q ⟨core, ⟨sendInstr i :: rest, log⟩⟩ := by
  refine endsIn_of_idle hb nofun fun z hz => ?_
  rw [systemStep_host_performed i hb] at hz
  injection hz with hz
  exact .inr (hz ▸ h)

/-- WAIT on an idle core is one poll. -/
theorem endsIn_poll (hb : core.busy = false) (h : EndsIn Q ⟨answer (statusWord core) core, ⟨rest, log⟩⟩) :
    EndsIn Q ⟨core, ⟨.poll :: rest, log⟩⟩ := by
  refine endsIn_of_idle hb nofun fun z hz => ?_
  rw [systemStep_host_poll rfl hz, hb]
  exact .inr h

/-- The host stands at a WAIT, before `rest`, while a compression of `M` from `H` runs. -/
def Waiting (H : Vector Word 8) (M : Vector Word 16) (rest : List HostOp) (log : List Reply) (y : System) : Prop :=
  (∃ k, Running H M k y.core) ∧ y.agent = ⟨.poll :: rest, log⟩

/-- WAIT on a running compression polls until the engine has made its accumulate step. -/
theorem endsIn_wait {H : Vector Word 8} {M : Vector Word 16} {k : Nat} (hrun : Running H M k core)
    (h : ∀ c : State, c.busy = false → c.H = compress H M → EndsIn Q ⟨c, ⟨rest, log⟩⟩) :
    EndsIn Q ⟨core, ⟨.poll :: rest, log⟩⟩ := by
  refine endsIn_of_stays (P := Waiting H M rest log) ?_ ?_ ?_ ⟨⟨k, hrun⟩, rfl⟩
  · rintro ⟨c, _⟩ ⟨-, rfl⟩
    exact nofun
  · rintro ⟨c, _⟩ z ⟨⟨k, hk⟩, rfl⟩ hz
    rw [systemStep_host_poll rfl hz, hk.busy]
    exact .inl ⟨⟨k, hk.answer _⟩, rfl⟩
  · rintro ⟨c, _⟩ ⟨⟨k, hk⟩, rfl⟩
    by_cases hlt : k < 64
    · exact .inl ⟨⟨k + 1, hk.engine hlt⟩, rfl⟩
    · have hk64 : k = 64 := by
        have := c.t.isLt
        have := hk.round
        omega
      subst hk64
      rw [hk.accumulate]
      exact .inr (endsIn_poll rfl (h _ rfl rfl))

/-- COMPRESS and WAIT (R54): every way the host's polls and the engine's steps interleave leaves `Compress(H, M)` in
H (R88). -/
theorem endsIn_compress_wait (hb : core.busy = false)
    (h : ∀ c : State, c.busy = false → c.H = compress core.H core.M → EndsIn Q ⟨c, ⟨rest, log ++ [⟨.ok, 0⟩]⟩⟩) :
    EndsIn Q ⟨core, ⟨sendInstr .compress :: .poll :: rest, log⟩⟩ :=
  endsIn_send hb (endsIn_wait (running_accepted core) h)

end

/-! ### The parts of "compute digest" -/

/-- Every reply so far was OK. -/
def LogOk (log : List Reply) : Prop := ∀ r ∈ log, r.resp = .ok

theorem allOk_iff_logOk (ag : Agent) : allOk ag = true ↔ LogOk ag.log := by simp [allOk, LogOk]

theorem LogOk.append {log more : List Reply} (h : LogOk log) (hmore : LogOk more) : LogOk (log ++ more) :=
  List.forall_mem_append.mpr ⟨h, hmore⟩

theorem logOk_ok (rdata : Word) : LogOk [⟨.ok, rdata⟩] := by simp [LogOk]

/-- From every idle core with `H` in its Hash State, and with no reply but OK so far, the program `code` ends in `Q`. -/
def ProgramEndsIn (Q : System → Prop) (code : List HostOp) (H : Vector Word 8) : Prop :=
  ∀ (c : State) (log : List Reply), c.busy = false → c.H = H → LogOk log → EndsIn Q ⟨c, ⟨code, log⟩⟩

section
variable {Q : System → Prop} {rest : List HostOp} {H : Vector Word 8}

theorem programEndsIn_init (h : ProgramEndsIn Q rest Config.IVTABLE) :
    ProgramEndsIn Q (sendInstr .init :: rest) H :=
  fun _ _ hb _ hlog => endsIn_send hb (h _ _ hb rfl (hlog.append (logOk_ok _)))

/-- Writing the words of `w` at the indices `js` completes a block that has them everywhere else (R79). -/
theorem endsIn_writes {w : Vector Word 16} (js : List (Fin 16))
    (h : ∀ (c : State) (log : List Reply), c.busy = false → c.H = H → c.M = w → LogOk log →
      EndsIn Q ⟨c, ⟨rest, log⟩⟩)
    {core : State} {log : List Reply} (hb : core.busy = false) (hH : core.H = H) (hlog : LogOk log)
    (hM : ∀ j : Fin 16, j ∉ js → core.M[j] = w[j]) :
    EndsIn Q ⟨core, ⟨(js.map fun j => sendInstr (.writeM j w[j])) ++ rest, log⟩⟩ := by
  induction js generalizing core log with
  | nil =>
    have hblock : core.M = w := Vector.ext fun j hj => hM ⟨j, hj⟩ List.not_mem_nil
    exact h core log hb hH hblock hlog
  | cons i js ih =>
    refine endsIn_send hb (ih hb hH (hlog.append (logOk_ok _)) fun j hj => ?_)
    have hget : (performed (.writeM i w[i]) core).M[j] = if j = i then w[i] else core.M[j] := getM_setM i j w[i] core
    rw [hget]
    split
    · rw [‹j = i›]
    · exact hM j (by simp [*])

/-- HASH_BLOCK (R54): the block is loaded and compressed. -/
theorem programEndsIn_hashBlock {w : Vector Word 16} (h : ProgramEndsIn Q rest (compress H w)) :
    ProgramEndsIn Q (expandPseudo (.hashBlock w) ++ rest) H := by
  intro core log hb hH hlog
  rw [expandPseudo, List.append_assoc]
  refine endsIn_writes (List.finRange 16) (fun c log' hc hcH hcM hlog' => ?_) hb hH hlog
    fun j hj => absurd (List.mem_finRange j) hj
  refine endsIn_compress_wait hc fun d hd hdH => h d _ hd ?_ (hlog'.append (logOk_ok _))
  rw [hdH, hcH, hcM]

/-- One HASH_BLOCK for each block folds the blocks into H in order (R37). -/
theorem programEndsIn_hashBlocks (bs : List (Vector Word 16)) (h : ProgramEndsIn Q rest (hashBlocks H bs)) :
    ProgramEndsIn Q ((bs.flatMap fun w => expandPseudo (.hashBlock w)) ++ rest) H := by
  induction bs generalizing H with
  | nil => exact h
  | cons w bs ih =>
    rw [List.flatMap_cons, List.append_assoc]
    exact programEndsIn_hashBlock (ih h)

/-- Reads of digest bytes leave BUSY and H, and log the bytes (R82). -/
theorem endsIn_readDigs (ks : List (Fin 32)) {core : State} {log : List Reply} (hb : core.busy = false)
    (h : ∀ c : State, c.busy = false → c.H = core.H →
      EndsIn Q ⟨c, ⟨rest, log ++ ks.map fun k => ⟨.ok, readResult (.readDig k) core⟩⟩⟩) :
    EndsIn Q ⟨core, ⟨(ks.map fun k => sendInstr (.readDig k)) ++ rest, log⟩⟩ := by
  induction ks generalizing core log with
  | nil => simpa using h core hb rfl
  | cons k ks ih =>
    refine endsIn_send hb (ih hb fun c hc hcH => ?_)
    rw [List.append_assoc]
    exact h c hc hcH

end

/-! ### The digest -/

/-- The 32 READ_DIG replies on a core. -/
def digestReplies (s : State) : List Reply :=
  (List.finRange 32).map fun k => ⟨.ok, readResult (.readDig k) s⟩

theorem logOk_digestReplies (s : State) : LogOk (digestReplies s) := by
  simp [LogOk, digestReplies]

/-- The low bytes of the 32 replies are the serialized H (R82, R97). -/
theorem digestReplies_bytes (s : State) :
    (digestReplies s).map (fun r => r.rdata.extractLsb' 0 8) = serialize s.H := by
  refine List.ext_getElem (by simp [digestReplies, serialize_length]) fun k hk _ => ?_
  have hk32 : k < 32 := by simpa [digestReplies] using hk
  obtain ⟨_, hbyte⟩ := List.getElem?_eq_some_iff.mp (readDig_serialize ⟨k, hk32⟩ s).1
  simp [digestReplies, hbyte, BitVec.setWidth_eq_extractLsb']

theorem digestOut_append (code : List HostOp) (log : List Reply) (s : State) :
    digestOut ⟨code, log ++ digestReplies s⟩ = serialize s.H := by
  have hlength : (digestReplies s).length = 32 := by simp [digestReplies]
  rw [digestOut, List.length_append, hlength, Nat.add_sub_cancel, List.drop_left, digestReplies_bytes]

/-- What "compute digest" leads to: the host holds `digest` and every reply was OK; BUSY is 0 and `H` is in the core. -/
def HoldsDigest (H : Vector Word 8) (y : System) : Prop :=
  digestOut y.agent = serialize H ∧ allOk y.agent = true ∧ y.core.busy = false ∧ y.core.H = H

theorem programEndsIn_readDigest (H : Vector Word 8) :
    ProgramEndsIn (HoldsDigest H) (expandPseudo .readDigest) H := by
  rintro core log hb rfl hlog
  rw [← List.append_nil (expandPseudo .readDigest)]
  refine endsIn_readDigs (List.finRange 32) hb fun c hc hcH => endsIn_done hc ?_
  have hok := hlog.append (logOk_digestReplies core)
  exact ⟨digestOut_append [] log core, (allOk_iff_logOk _).mpr hok, hc, hcH⟩

theorem programEndsIn_digestOps (bs : List (Vector Word 16)) (H : Vector Word 8) :
    ProgramEndsIn (HoldsDigest (hashBlocks Config.IVTABLE bs)) (digestOps bs) H :=
  programEndsIn_init (programEndsIn_hashBlocks bs (programEndsIn_readDigest _))

/-- ComputeDigest issues its operations only for a message of accepted length (R91, R97). -/
theorem ops_of_computeDigest {msg : List Byte} {ops : List HostOp} (h : computeDigest msg = .ok ops) :
    ops = digestOps (parseBlocks (padMessage msg)) := by
  unfold computeDigest at h
  split at h
  · cases h
  · injection h with h
    exact h.symm

/-- Settles O52: the program of the message's blocks, run from an idle core with no reply yet. -/
theorem computeDigestReturnsTheDigest : Obligations.ComputeDigestReturnsTheDigest := by
  intro msg ops core who y hops hb hr hrun hend
  rw [ops_of_computeDigest hops] at hrun
  obtain ⟨hout, hok, hbusy, hH⟩ := programEndsIn_digestOps _ core.H core [] hb rfl nofun who y hr hrun hend
  exact ⟨hout, by rw [hout, serialize_length], hok, hbusy, hH⟩

end Sys2Proof.Machine
end

section
/-! PROOFS. The control commands (R72 to R76): what an opcode without an index leaves legal, the one response of a
transaction, and each control command's effect with its rejection while BUSY = 1. -/

namespace Sys2Proof.Machine

/-! ### Commands without an index -/

/-- Under an opcode of format N, only the word with RSV and IDX all zero is legal (R45, R49). -/
theorem decode_eq_none_of_formatN {op : BitVec 8} {cmd : Word}
    (hop : op.toNat = 0 ∨ op.toNat = 1 ∨ op.toNat = 4 ∨ op.toNat = 7 ∨ op.toNat = 8)
    (hcmd : opcField cmd = op) (hne : cmd.toNat ≠ op.toNat * 2 ^ 24) (wdata : Word) :
    decode cmd wdata = none := by
  subst hcmd
  have hfields := cmd_toNat_eq_fields cmd
  rw [decode_eq_none_iff]
  omega

/-- A command whose encoding is its opcode alone, whatever the write data, has no other word (R45, R53). -/
theorem encodedAlone_encode {op : BitVec 8} {i : Instr}
    (hop : op.toNat = 0 ∨ op.toNat = 1 ∨ op.toNat = 4 ∨ op.toNat = 7 ∨ op.toNat = 8)
    (hword : (encode i).1.toNat = op.toNat * 2 ^ 24) (hdecode : ∀ wdata, decode (encode i).1 wdata = some i) :
    EncodedAlone op (encode i).1 i := by
  intro cmd wdata
  refine ⟨⟨fun h => ?_, fun h => h ▸ hdecode wdata⟩, fun hcmd hne s => takeTurn_host_illegal cmd wdata s ?_⟩
  · exact (encodeOfDecodedWordIsTheWord cmd wdata i h).1.symm
  · exact decode_eq_none_of_formatN hop hcmd (fun h => hne (BitVec.eq_of_toNat_eq (h.trans hword.symm))) wdata

/-! ### The order of the checks -/

/-- Settles O10: an illegal word, a command that BUSY rejects, a command that is performed. -/
theorem illegalWinsOverBusy : Obligations.IllegalWinsOverBusy := by
  intro cmd wdata s
  obtain ⟨hd, h⟩ | ⟨i, hd, ⟨hb, ha, h⟩ | ⟨ha, h⟩⟩ := transact_cases cmd wdata s
  · exact ⟨_, ⟨.illegal, 0⟩, h, rfl, by rw [hd]⟩
  · exact ⟨_, ⟨.busy, 0⟩, h, rfl, by simp only [hd, hb, ha, and_self, if_true]⟩
  · have hok : ¬ (s.busy = true ∧ acceptedWhileBusy i = false) := fun ⟨hb, hi⟩ => by simp [ha hb] at hi
    exact ⟨_, ⟨.ok, readResult i s⟩, h, performed_reply i s, by simp only [hd, if_neg hok]⟩

/-! ### Commands -/

/-- Settles O13: NOP is performed whatever BUSY is. -/
theorem nopReturnsOkAndChangesNothing : Obligations.NopReturnsOkAndChangesNothing :=
  ⟨encodedAlone_encode (i := .nop) (by decide) rfl fun _ => rfl, fun s => exec_accepted .nop s fun _ => rfl⟩

/-- Settles O14: INIT writes IV, which does not depend on H and is the reset value of H. -/
theorem initLoadsTheInitialHash : Obligations.InitLoadsTheInitialHash := by
  refine ⟨encodedAlone_encode (i := .init) (by decide) rfl fun _ => rfl, fun s hb => ?_, fun s hb => ?_,
    fun s t h => ?_, ?_⟩
  · exact exec_idle .init s hb
  · exact exec_busy .init s hb rfl
  · exact exec_again (i := .init) nofun h
  · exact exec_idle .init State.reset rfl

/-- Settles O15: the schedule after acceptance is `loadBlock`, with M below entry 16 and the old W from there on. -/
theorem compressStartsTheEngine : Obligations.CompressStartsTheEngine := by
  refine ⟨encodedAlone_encode (i := .compress) (by decide) rfl fun _ => rfl, fun s hb => ?_, fun s hb => ?_⟩
  · exact ⟨loadBlock s.W s.M, loadBlock_get_low s.W s.M, loadBlock_get_high s.W s.M, exec_idle .compress s hb⟩
  · exact exec_busy .compress s hb rfl

/-- The engine never raises BUSY: with BUSY = 0 it has no step (R85). -/
theorem busy_of_engineStep_busy {s : State} (h : (engineStep s).busy = true) : s.busy = true := by
  cases hb : s.busy with
  | true => rfl
  | false => rw [engineStep_idle s hb, hb] at h; exact h

/-- Settles O16: READ_STATUS is performed whatever BUSY is, and the engine lowers BUSY at most. -/
theorem readStatusReturnsTheThreeBits : Obligations.ReadStatusReturnsTheThreeBits := by
  refine ⟨encodedAlone_encode (i := .readStatus) (by decide) rfl fun _ => rfl, fun s => ?_, fun s t h => ?_⟩
  · rw [exec_accepted .readStatus s fun _ => rfl, ← statusWord_eq]
    rfl
  · rw [takeTurn_engine] at h
    injection h with h
    subst h
    exact ⟨engineStep_errBusy s, engineStep_errIllegal s, busy_of_engineStep_busy⟩

/-- Settles O17: CLEAR_ERR is performed whatever BUSY is. -/
theorem clearErrClearsTheStickyBits : Obligations.ClearErrClearsTheStickyBits :=
  ⟨encodedAlone_encode (i := .clearErr) (by decide) rfl fun _ => rfl, fun s => exec_accepted .clearErr s fun _ => rfl⟩

end Sys2Proof.Machine
end

section
/-! PROOFS. The data commands (R79 to R82): which words bear an index, and each data command's effect with its
rejection while BUSY = 1. -/

namespace Sys2Proof.Machine

/-! ### Commands with an index -/

/-- Only WRITE_M takes the write-data word (R46). -/
theorem build_of_ne_writeM {m : Mnemonic} (hm : m ≠ .writeM) (cmd wdata wdata' : Word) :
    build m cmd wdata = build m cmd wdata' := by
  cases m with
  | writeM => exact absurd rfl hm
  | _ => rfl

/-- An encoded command word but WRITE_M's decodes to its command whatever write data comes with it. -/
theorem decode_encode_fst {i : Instr} (hi : i.mnemonic ≠ .writeM) (wdata : Word) :
    decode (encode i).1 wdata = some i := by
  obtain ⟨r, hrow, hm⟩ := Option.map_eq_some_iff.mp (encode_selects_own_row i)
  rw [decode, hrow, Option.map_some, hm, build_of_ne_writeM hi _ wdata (encode i).2, build_encode]

/-- `op` is an opcode whose commands bear an index of `k` bits (R45, R47). -/
def OpcodeIndexed (op : BitVec 8) (k : Nat) : Prop :=
  ((op.toNat = 2 ∨ op.toNat = 3) ∧ k = 4) ∨ (op.toNat = 5 ∧ k = 3) ∨ (op.toNat = 6 ∧ k = 5)

/-- Under an opcode with an index of `k` bits, no bit of `cmd[23:k]` may be set (R45, R49). -/
theorem decode_eq_none_of_bitsAboveIndex {op : BitVec 8} {k : Nat} (hop : OpcodeIndexed op k) {cmd : Word}
    (hcmd : opcField cmd = op) (hbits : cmd.extractLsb' k (24 - k) ≠ 0) (wdata : Word) :
    decode cmd wdata = none := by
  subst hcmd
  have hfields := cmd_toNat_eq_fields cmd
  rw [ne_zero_iff_toNat, extractLsb'_toNat_eq] at hbits
  rw [decode_eq_none_iff]
  obtain ⟨hop, rfl⟩ | ⟨hop, rfl⟩ | ⟨hop, rfl⟩ := hop <;> omega

theorem encodedIndexed_of_decode {op : BitVec 8} {pattern : Word} {k : Nat} {i : Fin (2 ^ k) → Word → Instr}
    (hop : OpcodeIndexed op k)
    (hdecode : ∀ idx wdata, decode (pattern ||| BitVec.ofNat 32 idx.val) wdata = some (i idx wdata)) :
    EncodedIndexed op pattern k i :=
  ⟨hdecode, fun cmd wdata hcmd hbits s =>
    takeTurn_host_illegal cmd wdata s (decode_eq_none_of_bitsAboveIndex hop hcmd hbits wdata)⟩

/-! ### Commands -/

/-- The last of two words written at one index stays (R79). -/
theorem performed_writeM_writeM (idx : Fin 16) (u v : Word) (s : State) :
    performed (.writeM idx v) (performed (.writeM idx u) s) = performed (.writeM idx v) s := by
  simp [performed, answer, setM]

/-- Settles O18: WRITE_M is `setM`, and it leaves BUSY, so a second WRITE_M is performed too. -/
theorem writeMStoresOneWord : Obligations.WriteMStoresOneWord := by
  refine ⟨encodedIndexed_of_decode (.inl (by decide)) fun idx wdata => decode_encode (.writeM idx wdata),
    fun s idx v hb => ?_, fun s idx v hb => ?_, fun s t idx u v hb h => ?_⟩
  · exact ⟨(setM idx v s).M, (getM_setM idx idx v s).trans (if_pos rfl),
      fun j hj => (getM_setM idx j v s).trans (if_neg hj), exec_idle (.writeM idx v) s hb⟩
  · exact exec_busy (.writeM idx v) s hb rfl
  · rw [exec_idle _ s hb] at h
    injection h with h
    subst h
    rw [exec_idle _ s hb, ← performed_writeM_writeM idx u v s]
    exact exec_idle _ _ hb

/-- Among the commands only WRITE_M writes M (R11). -/
theorem exec_M_of_ne_writeM {i : Instr} {s t : State} (hi : ∀ idx v, i ≠ .writeM idx v) (h : exec i s = .next t) :
    t.M = s.M := by
  obtain ⟨-, -, rfl⟩ | ⟨-, rfl⟩ := exec_cases h
  · rfl
  · by_contra hne
    obtain ⟨idx, v, rfl⟩ := writeM_of_performed_M_ne hne
    exact hi idx v rfl

/-- Settles O19: READ_M answers `getM`, and neither COMPRESS nor the engine writes M. -/
theorem readMReturnsTheBlockWord : Obligations.ReadMReturnsTheBlockWord := by
  refine ⟨encodedIndexed_of_decode (.inl (by decide)) fun idx => decode_encode_fst (i := .readM idx) nofun,
    fun s idx hb => ?_, fun s idx hb => ?_, fun idx => ?_, fun s t h => ?_⟩
  · exact exec_idle (.readM idx) s hb
  · exact exec_busy (.readM idx) s hb rfl
  · have hzero : getM idx State.reset = 0 := Vector.getElem_replicate idx.isLt
    rw [exec_idle _ _ rfl, performed, hzero, answer]
  · obtain h | h := h
    · exact exec_M_of_ne_writeM (i := .compress) nofun h
    · rw [takeTurn_engine] at h
      injection h with h
      exact h ▸ engineStep_M s

/-- Settles O20: READ_H answers `getH`, and both reset and an accepted INIT leave IV in H. -/
theorem readHReturnsTheHashWord : Obligations.ReadHReturnsTheHashWord := by
  refine ⟨encodedIndexed_of_decode (.inr (.inl (by decide))) fun idx => decode_encode_fst (i := .readH idx) nofun,
    fun s idx hb => ?_, fun s idx hb => ?_, fun s t idx h => ?_⟩
  · exact exec_idle (.readH idx) s hb
  · exact exec_busy (.readH idx) s hb rfl
  · obtain rfl | ⟨hb, hinit⟩ := h
    · exact exec_idle (.readH idx) State.reset rfl
    · rw [exec_idle _ t hb] at hinit
      injection hinit with hinit
      subst hinit
      exact exec_idle (.readH idx) (performed .init t) hb

/-- Settles O21: READ_DIG answers `digestByte`, which is the byte that the serializer puts at the index. -/
theorem readDigReturnsTheDigestByte : Obligations.ReadDigReturnsTheDigestByte := by
  refine ⟨encodedIndexed_of_decode (.inr (.inr (by decide))) fun idx => decode_encode_fst (i := .readDig idx) nofun,
    fun s idx hb => ?_, fun s idx hb => ?_⟩
  · exact ⟨digestByte idx s, rfl, serialize_getElem? s.H idx idx.isLt, exec_idle (.readDig idx) s hb⟩
  · exact exec_busy (.readDig idx) s hb rfl

end Sys2Proof.Machine
end

section
/-! PROOFS. The engine among the other agents: the turn a step takes (R85, R102, R117, R118), and that under weak
fairness every running compression ends (R89, R122). -/

namespace Sys2Proof.Machine

/-! ### Steps -/

/-- Settles O8: the listed turn is taken, and with none listed the engine's step is the identity on an idle core. -/
theorem stepTakesTheListedTurn : Obligations.StepTakesTheListedTurn := by
  intro s rest
  refine ⟨fun cmd wdata hturns hdecode => ?_, step_of_turns s .engine rest, step_of_turns s .reset rest,
    fun hturns _ => step_of_no_turns s hturns, fun hturns hb => ?_⟩
  · rw [step_of_turns s _ rest hturns]
    exact takeTurn_host_illegal cmd wdata _ hdecode
  · rw [step_of_no_turns s hturns, engineStep_idle s hb]

/-! ### The end of a wait -/

/-- While BUSY = 1 no turn adds to the engine steps left: COMPRESS, which alone could, is rejected (R74). -/
theorem stepsLeft_takeTurn_le {turn : Turn} {s t : State} (hb : s.busy = true) (h : takeTurn turn s = .next t) :
    stepsLeft t ≤ stepsLeft s := by
  obtain ⟨_, _, -, -, rfl⟩ | ⟨_, _, _, -, -, -, -, rfl⟩ | ⟨_, _, i, -, -, ha, rfl⟩ | ⟨-, rfl⟩ | ⟨-, rfl⟩ :=
    takeTurn_cases h
  · exact le_refl (stepsLeft s)
  · exact le_refl (stepsLeft s)
  · obtain ⟨_, _, _, e⟩ := performed_acceptedWhileBusy (ha hb) s
    rw [e]
    exact le_refl (stepsLeft s)
  · rw [stepsLeft_engineStep]
    exact Nat.sub_le _ 1
  · rw [stepsLeft_takeReset]
    exact Nat.zero_le _

/-- An engine turn with BUSY = 1 brings the end of the compression nearer (R86, R87). -/
theorem stepsLeft_engine_turn_lt {s t : State} (hb : s.busy = true) (h : takeTurn .engine s = .next t) :
    stepsLeft t < stepsLeft s := by
  rw [takeTurn_engine] at h
  injection h with h
  have hleft : stepsLeft s ≠ 0 := by simp [stepsLeft_eq_zero_iff, hb]
  rw [← h, stepsLeft_engineStep]
  omega

/-- In an execution that stays busy the engine steps left come to rest. -/
theorem stepsLeft_settles {σ : Nat → Turn} {x : Nat → State} (h : IsExecution σ x) {n : Nat}
    (hbusy : ∀ m, n ≤ m → (x m).busy = true) :
    ∃ k, n ≤ k ∧ ∀ m, k ≤ m → stepsLeft (x m) = stepsLeft (x k) := by
  have hanti : Antitone fun k => stepsLeft (x (n + k)) :=
    antitone_nat_of_succ_le fun k => stepsLeft_takeTurn_le (hbusy (n + k) (by omega)) (h (n + k))
  obtain ⟨k, hrest⟩ := WellFoundedLT.antitone_chain_condition hanti
  refine ⟨n + k, by omega, fun m hm => ?_⟩
  obtain ⟨j, rfl⟩ := Nat.exists_eq_add_of_le (show n ≤ m by omega)
  exact (hrest j (by omega)).symm

/-- Settles O43: if BUSY stayed 1 the engine steps left would come to rest, but fairness gives the engine one more
turn, which lowers them. -/
theorem waitEndsUnderWeakFairness : Obligations.WaitEndsUnderWeakFairness := by
  intro σ x hexec hfair n
  by_contra hwaits
  have hbusy (m : Nat) (hm : n ≤ m) : (x m).busy = true := by
    by_contra hb
    exact hwaits ⟨m, hm, Bool.eq_false_of_not_eq_true hb⟩
  obtain ⟨k, hk, hrest⟩ := stepsLeft_settles hexec hbusy
  obtain ⟨m, hm, hengine⟩ := hfair k fun m hm => hbusy m (hk.trans hm)
  have hlt : stepsLeft (x (m + 1)) < stepsLeft (x m) :=
    stepsLeft_engine_turn_lt (hbusy m (hk.trans hm)) (hengine ▸ hexec m)
  rw [hrest m hm, hrest (m + 1) (by omega)] at hlt
  exact lt_irrefl _ hlt

end Sys2Proof.Machine
end

section
/-! PROOFS. The host's duties before the core sees a block: the size planner and its limit (R91 to R93, R95), the padded
buffer byte by byte (R94), and the words of its blocks (R96). -/

namespace Sys2Proof.Machine

/-! ### Size planner -/

theorem planSize_tooLong {L : Nat} (h : 2 ^ 61 ≤ L) : planSize L = .error .inputTooLarge := if_pos h

theorem planSize_accepted {L : Nat} (h : L < 2 ^ 61) : planSize L = .ok (paddedLength L) := if_neg (Nat.not_le.2 h)

theorem computeDigest_of_planSize_error {msg : List Byte} {e : HostError} (h : planSize msg.length = .error e) :
    computeDigest msg = .error e := by
  rw [computeDigest, h]

theorem computeDigest_of_planSize_ok {msg : List Byte} {P : Nat} (h : planSize msg.length = .ok P) :
    computeDigest msg = .ok (digestOps (parseBlocks (padMessage msg))) := by
  rw [computeDigest, h]

/-- Settles O44: ComputeDigest answers as the size planner does. -/
theorem tooLongMessagesAreRefused : Obligations.TooLongMessagesAreRefused := by
  intro msg
  refine ⟨fun hlong => ?_, fun hshort => ?_⟩
  · have hplan := planSize_tooLong hlong
    exact ⟨hplan, computeDigest_of_planSize_error hplan⟩
  · have hplan := planSize_accepted (L := msg.length) (by omega)
    exact ⟨hplan, computeDigest_of_planSize_ok hplan⟩

/-- The zero bytes begin at offset `(L + 1) mod 64` of a block and end before the next offset 56 (R93). -/
theorem zeroBytes_eq (L : Nat) : paddedLength L - L - 9 = (119 - L % 64) % 64 := by
  rw [paddedLength_eq]
  omega

/-- The zero bits complete the byte of the marker and are whole zero bytes after it (R93). -/
theorem zeroBits_eq (L : Nat) : zeroBits L = 8 * (paddedLength L - L - 9) + 7 := by
  rw [zeroBytes_eq]
  unfold zeroBits bitLength
  omega

/-- Settles O45: the zero bits are seven more than those of the zero bytes, of which there are at most 63. -/
theorem paddedLengthIsWholeBlocks : Obligations.PaddedLengthIsWholeBlocks := by
  intro L
  have hP := paddedLength_eq L
  have hzero := zeroBits_eq L
  have hfew : paddedLength L - L - 9 ≤ 63 := by
    rw [zeroBytes_eq]
    omega
  refine ⟨?_, ?_, hP, ?_, ?_, ?_, add_nine_le_paddedLength L, hfew, ?_⟩ <;> omega

/-- Settles O46: the number of zero bytes depends on `L mod 64` alone. -/
theorem paddingBoundaryIsFiftyFive : Obligations.PaddingBoundaryIsFiftyFive := by
  intro L
  rw [zeroBytes_eq]
  constructor <;> omega

/-! ### The padded buffer -/

theorem padMessage_getElem?_message {msg : List Byte} {k : Nat} (hk : k < msg.length) :
    (padMessage msg)[k]? = msg[k]? := by
  rw [padMessage, List.append_assoc, List.append_assoc, List.getElem?_append_left hk]

theorem padMessage_getElem?_marker (msg : List Byte) : (padMessage msg)[msg.length]? = some 0x80 := by
  rw [padMessage, List.append_assoc, List.append_assoc, List.getElem?_append_right (le_refl _), Nat.sub_self]
  rfl

theorem padMessage_getElem?_zero {msg : List Byte} {k : Nat} (hlo : msg.length < k)
    (hhi : k < paddedLength msg.length - 8) : (padMessage msg)[k]? = some 0x00 := by
  have hbefore : (msg ++ [0x80]).length = msg.length + 1 := List.length_append
  rw [padMessage, List.getElem?_append_left (by rwa [length_beforeLengthField]),
    List.getElem?_append_right (by omega), hbefore, List.getElem?_replicate_of_lt (by omega)]

/-- Settles O47: each part of the padded buffer stands where the lengths of the parts before it put it. -/
theorem paddedBufferByteByByte : Obligations.PaddedBufferByteByByte := by
  intro msg
  refine ⟨padMessage_length msg, ?_, fun k _ => ⟨padMessage_getElem?_message, ?_, padMessage_getElem?_zero, ?_⟩⟩
  · rw [padMessage_length, paddedLength_eq, Nat.mul_mod_right]
  · rintro rfl
    exact padMessage_getElem?_marker msg
  · rintro i hi rfl
    exact padMessage_getElem?_lengthField msg i hi

/-! ### The blocks of a buffer -/

theorem parseBlocks_length (buf : List Byte) : (parseBlocks buf).length = buf.length / 64 := by
  rw [parseBlocks, List.length_map, List.length_range]

theorem parseBlocks_getElem? {buf : List Byte} {i : Nat} (hi : i < buf.length / 64) :
    (parseBlocks buf)[i]? = some (parseBlock buf i) := by
  rw [parseBlocks, List.getElem?_map, List.getElem?_range hi, Option.map_some]

/-- Inside the buffer `bufByte` reads the buffer's own byte. -/
theorem getElem?_eq_some_bufByte {buf : List Byte} {k : Nat} (hk : k < buf.length) :
    buf[k]? = some (bufByte buf k) := by
  rw [bufByte, List.getElem?_eq_getElem hk, List.getD_eq_getElem buf 0 hk]

/-- Settles O48: the four bytes of every word of a whole block lie inside the buffer. -/
theorem blockWordsAreBigEndian : Obligations.BlockWordsAreBigEndian := by
  intro buf i j hi hj
  have hbyte (c : Nat) (hc : c < 4) : i * 64 + 4 * j + c < buf.length := by omega
  refine ⟨parseBlocks_length buf, parseBlock buf i, _, _, _, _, parseBlocks_getElem? hi,
    getElem?_eq_some_bufByte (hbyte 0 (by decide)), getElem?_eq_some_bufByte (hbyte 1 (by decide)),
    getElem?_eq_some_bufByte (hbyte 2 (by decide)), getElem?_eq_some_bufByte (hbyte 3 (by decide)), ?_⟩
  rw [parseBlock_getElem, blockWord, be32_toNat]

end Sys2Proof.Machine
end

section
/-! PROOFS. The core's error mechanism: the BUSY rejection (R103), the sticky bits as a record of every rejection
(R101, R110), and the idle core, which holds its state (R117). -/

namespace Sys2Proof.Machine

/-! ### The BUSY rejection -/

/-- Settles O12: what is accepted while BUSY = 1 writes the sticky bits and the port's outputs alone. -/
theorem busyRejectsTheSixCommands : Obligations.BusyRejectsTheSixCommands := by
  intro s hb
  refine ⟨fun i hi => exec_busy i s hb ?_, fun i hi => ?_⟩
  · obtain rfl | rfl | ⟨_, _, rfl⟩ | ⟨_, rfl⟩ | ⟨_, rfl⟩ | ⟨_, rfl⟩ := hi <;> rfl
  · have ha : acceptedWhileBusy i = true := by obtain rfl | rfl | rfl := hi <;> rfl
    refine ⟨performed i s, readResult i s, exec_accepted i s fun _ => ha, performed_reply i s, ?_⟩
    obtain ⟨_, _, _, e⟩ := performed_acceptedWhileBusy ha s
    rw [e]
    exact ⟨hb, rfl, rfl, rfl, rfl, rfl⟩

/-! ### The error record -/

theorem noError_iff (s : State) : noError s = true ↔ s.errIllegal = false ∧ s.errBusy = false := by
  simp [noError]

/-- A transaction that leaves no error was not rejected: each rejection sets its sticky bit (R102, R103). -/
theorem reply_ok_of_noError {cmd wdata : Word} {s t : State} (h : takeTurn (.host cmd wdata) s = .next t)
    (ht : noError t = true) : ∃ r, t.reply = some r ∧ r.resp = .ok := by
  obtain ⟨hillegal, hbusy⟩ := (noError_iff t).mp ht
  obtain ⟨_, _, -, -, rfl⟩ | ⟨_, _, _, -, -, -, -, rfl⟩ | ⟨_, _, i, -, -, -, rfl⟩ | ⟨e, -⟩ | ⟨e, -⟩ :=
    takeTurn_cases h
  · exact absurd hillegal nofun
  · exact absurd hbusy nofun
  · exact ⟨_, performed_reply i s, rfl⟩
  · cases e
  · cases e

/-- The turn clears no sticky bit: it is neither a reset nor a CLEAR_ERR. -/
def KeepsErrors (turn : Turn) : Prop :=
  turn.isReset = false ∧ ∀ cmd wdata, turn = .host cmd wdata → decode cmd wdata ≠ some .clearErr

/-- The sticky bits stay set: only reset and CLEAR_ERR clear them (R11, R101). -/
theorem noError_before_turn {turn : Turn} {s t : State} (hk : KeepsErrors turn) (h : takeTurn turn s = .next t)
    (ht : noError t = true) : noError s = true := by
  obtain ⟨hreset, hclear⟩ := hk
  have hr : turn ≠ .reset := by rintro rfl; cases hreset
  rw [noError_iff] at ht ⊢
  obtain ⟨hillegal, hbusy⟩ := ht
  have illegal_same : t.errIllegal = s.errIllegal := by
    by_contra hne
    obtain ⟨cmd, wdata, hturn, ⟨hset, -⟩ | ⟨-, hd⟩⟩ := writers_of_errIllegal h hr hne
    · simp [hillegal] at hset
    · exact hclear cmd wdata hturn hd
  have busy_same : t.errBusy = s.errBusy := by
    by_contra hne
    obtain ⟨cmd, wdata, i, hturn, hd, ⟨hset, -, -⟩ | ⟨-, rfl⟩⟩ := writers_of_errBusy h hr hne
    · simp [hbusy] at hset
    · exact hclear cmd wdata hturn hd
  exact ⟨illegal_same ▸ hillegal, busy_same ▸ hbusy⟩

/-- A step takes the first listed turn and leaves the others listed. -/
theorem step_takes_turn {turn : Turn} {rest : List Turn} {s : State} (h : s.turns = turn :: rest) :
    ∃ t, step s = .next t ∧ takeTurn turn { s with turns := rest } = .next t ∧ t.turns = rest := by
  obtain ⟨t, ht⟩ := takeTurn_next turn { s with turns := rest }
  exact ⟨t, (step_of_turns s turn rest h).trans ht, ht, takeTurn_turns ht⟩

/-- Along a run that clears no sticky bit, no error at the end means none at the start. -/
theorem noError_before_run {ts rest : List Turn} {s u : State} (hturns : s.turns = ts ++ rest)
    (hk : ∀ x ∈ ts, KeepsErrors x) (hrun : runSteps ts.length s = .next u) (hu : noError u = true) :
    noError s = true := by
  induction ts generalizing s with
  | nil =>
    injection hrun with hrun
    exact hrun ▸ hu
  | cons turn ts ih =>
    obtain ⟨hturn, hts⟩ := List.forall_mem_cons.mp hk
    obtain ⟨t, hstep, htake, ht⟩ := step_takes_turn hturns
    rw [List.length_cons, runSteps_succ _ hstep] at hrun
    exact noError_before_turn (s := { s with turns := ts ++ rest }) hturn htake (ih ht hts hrun)

/-- Settles O36: the state after each host transaction has no error, since the rest of the run clears none. -/
theorem noErrorAtTheEndMeansAllOk : Obligations.NoErrorAtTheEndMeansAllOk := by
  intro s u ts rest hturns hk hrun hu k cmd wdata hget
  induction ts generalizing s k with
  | nil => simp at hget
  | cons turn ts ih =>
    obtain ⟨-, hts⟩ := List.forall_mem_cons.mp hk
    obtain ⟨t, hstep, htake, ht⟩ := step_takes_turn hturns
    rw [List.length_cons, runSteps_succ _ hstep] at hrun
    rw [runSteps_succ k hstep]
    cases k with
    | zero =>
      obtain rfl : turn = .host cmd wdata := by simpa using hget
      obtain ⟨r, hreply, hok⟩ := reply_ok_of_noError htake (noError_before_run ht hts hrun hu)
      exact ⟨t, r, runSteps_zero t, hreply, hok⟩
    | succ k => exact ih t ht hts hrun k hget

/-! ### The idle core -/

/-- Settles O37: with nothing listed a step is the engine's, and an idle engine leaves the state. -/
theorem idleCoreHoldsItsState : Obligations.IdleCoreHoldsItsState := by
  intro k s hturns hb
  have hstep : step s = .next s := by rw [step_of_no_turns s hturns, engineStep_idle s hb]
  induction k with
  | zero => exact runSteps_zero s
  | succ k ih => rw [runSteps_succ k hstep, ih]

end Sys2Proof.Machine
end

section
/-! PROOFS. The state after reset (R118): what the reset turn writes, that the core then takes every command, and that
it satisfies the engine's invariant. -/

namespace Sys2Proof.Machine

/-- A reset turn is the reset step in every state, a running compression included (R118). -/
theorem takeTurn_reset (s : State) : takeTurn .reset s = .next (takeReset s) := rfl

/-- Reset leaves the core idle (R118). -/
theorem reset_busy : State.reset.busy = false := rfl

/-- An idle core accepts every legal command: it performs the command and answers OK (R71). -/
theorem exec_idle_ok (i : Instr) {s : State} (hb : s.busy = false) :
    ∃ (t : State) (rdata : Word), exec i s = .next t ∧ t.reply = some ⟨.ok, rdata⟩ :=
  ⟨performed i s, readResult i s, exec_idle i s hb, performed_reply i s⟩

/-- Settles O34: the reset turn overwrites all but the listed turns, and BUSY = 0 in the result lets every command
in. -/
theorem resetSetsEveryElement : Obligations.ResetSetsEveryElement := by
  refine ⟨fun s => ?_, fun i => ?_⟩
  · exact takeTurn_reset s
  · exact exec_idle_ok i reset_busy

/-- Settles O38: the invariant speaks of a running compression only, and reset leaves none running. -/
theorem engineInvAtReset : Obligations.EngineInvAtReset := engineInv_idle reset_busy

end Sys2Proof.Machine
end
